-- ==== Sys2Proof/Word.lean ====
section
/-! DEFINITION. The word, byte and register-number types (spec/00_scope.md R6: 16-bit unsigned words, eight
registers). Arithmetic on words is that of bit vectors, modulo 2^16 (R9). -/

namespace Sys2Proof

/-- A 16-bit word: register contents, addresses and memory cells (00_scope.md R6). -/
abbrev Word := BitVec 16

/-- A byte of the input and output streams (10_state.md R30, R31). -/
abbrev Byte := BitVec 8

/-- A 3-bit register field, R0 to R7 (10_state.md R20). -/
abbrev RegIdx := BitVec 3

end Sys2Proof
end

