-- ==== Sys2Proof/Config.lean ====
section
/-! DEFINITION. The named parameters of spec/00_scope.md R6 as plain data (`Config`), and the two free values the
spec leaves open (`Config.keyPending`, `Config.pcAfterHalt`), constants with no body. The defaults of the parameters stand in
Machine/Defaults.lean and, for the opcode numbers, in Decode.lean. -/

namespace Sys2Proof

/-- COND: exactly one of negative, zero, positive (10_state.md R23). -/
inductive Cond where
  | n
  | z
  | p
  deriving DecidableEq, Repr

/-- The sixteen names that `OPCODE_MAP` gives numbers to (30_encoding.md R64). -/
inductive Opcode where
  | br | add | ld | st | jsr | and | ldr | str
  | rti | not | ldi | sti | jmp | reserved | lea | trap
  deriving DecidableEq, Repr

/-- All opcode names. -/
def Opcode.all : List Opcode :=
  [.br, .add, .ld, .st, .jsr, .and, .ldr, .str, .rti, .not, .ldi, .sti, .jmp, .reserved, .lea, .trap]

/-- `OPCODE_MAP`: the name that each 4-bit code selects (30_encoding.md R64, 92_eei_decisions.md D1). -/
abbrev OpcodeMap := Vector Opcode 16

/-- Each of the sixteen names stands at exactly one code. -/
def OpcodeMap.wf (m : OpcodeMap) : Bool :=
  decide m.toList.Nodup && Opcode.all.all (fun op => m.toList.contains op)

/-- The named parameters of 00_scope.md R6, fixed for a launch. -/
structure Config where
  /-- `OPCODE_MAP` (D1). -/
  opcodeMap : OpcodeMap
  /-- `KBSR_ADDR`, the keyboard-status address (D2). -/
  kbsrAddr : Word
  /-- `KBDR_ADDR`, the keyboard-data address (D2). -/
  kbdrAddr : Word
  /-- `PC_START` (D3). -/
  pcStart : Word
  /-- `COND_RESET` (D4). -/
  condReset : Cond
  /-- `GPR_INIT`, the launch values of R0 to R7 (D5). -/
  gprInit : Vector Word 8
  /-- `JSRR_LINK_FIRST` (D8). -/
  jsrrLinkFirst : Bool
  /-- `TRAP_INPUT_SETS_COND` (D9). -/
  trapInputSetsCond : Bool
  /-- `IN_PROMPT` (D16). -/
  inPrompt : List Byte
  /-- `HALT_BANNER` (D17). -/
  haltBanner : List Byte
  deriving DecidableEq, Repr

/-- `KBSR_ADDR` and `KBDR_ADDR` differ (00_scope.md R6) and the opcode map is one-to-one (30_encoding.md R64). -/
def Config.wf (c : Config) : Bool :=
  c.opcodeMap.wf && decide (c.kbsrAddr ≠ c.kbdrAddr)

/-- FREE VALUE: the host's answer to its k-th keyboard poll, whether a byte is pending (10_state.md R30, D11;
93_implementation_defined.md U15; DESIGN CHOICE, entry 12). -/
opaque Config.keyPending : Nat → Bool

/-- FREE VALUE: PC after HALT (43_trap.md R127, D18; 93_implementation_defined.md U5; DESIGN CHOICE, entry 13). -/
opaque Config.pcAfterHalt : Nat → Word

end Sys2Proof
end

