-- ==== Sys2Proof/Syntax.lean ====
section
/-! DEFINITION. The instructions: one constructor per row of spec/opcode_table.json, with the fields of
spec/30_encoding.md R62 as the narrow bit fields they are. Unused bits are no part of an instruction (R66). -/

namespace Sys2Proof

inductive Instr where
  /-- ADD, register mode (40_operate.md R80). -/
  | addReg (dr sr1 sr2 : RegIdx)
  /-- ADD, immediate mode (R80). -/
  | addImm (dr sr1 : RegIdx) (imm5 : BitVec 5)
  /-- AND, register mode (R81). -/
  | andReg (dr sr1 sr2 : RegIdx)
  /-- AND, immediate mode (R81). -/
  | andImm (dr sr1 : RegIdx) (imm5 : BitVec 5)
  /-- NOT (R82). -/
  | not (dr sr : RegIdx)
  /-- BR: the three condition bits and PCoffset9 (41_control.md R90). -/
  | br (n z p : Bool) (pcOffset9 : BitVec 9)
  /-- JMP (R91); the word with BaseR = 7 decodes as RET. -/
  | jmp (baseR : RegIdx)
  /-- RET, the JMP with BaseR = 7 (R92). -/
  | ret
  /-- JSR (R93). -/
  | jsr (pcOffset11 : BitVec 11)
  /-- JSRR (R94). -/
  | jsrr (baseR : RegIdx)
  /-- LD (42_load_store.md R100). -/
  | ld (dr : RegIdx) (pcOffset9 : BitVec 9)
  /-- LDI (R101). -/
  | ldi (dr : RegIdx) (pcOffset9 : BitVec 9)
  /-- LDR (R102). -/
  | ldr (dr baseR : RegIdx) (offset6 : BitVec 6)
  /-- LEA (R103). -/
  | lea (dr : RegIdx) (pcOffset9 : BitVec 9)
  /-- ST (R104). -/
  | st (sr : RegIdx) (pcOffset9 : BitVec 9)
  /-- STI (R105). -/
  | sti (sr : RegIdx) (pcOffset9 : BitVec 9)
  /-- STR (R106). -/
  | str (sr baseR : RegIdx) (offset6 : BitVec 6)
  /-- TRAP with any vector (43_trap.md R120); the six named vectors decode as their own constructors. -/
  | trap (trapvect8 : BitVec 8)
  /-- GETC, TRAP x20 (R122). -/
  | getc
  /-- OUT, TRAP x21 (R123). -/
  | out
  /-- PUTS, TRAP x22 (R124). -/
  | puts
  /-- IN, TRAP x23 (R125). -/
  | inp
  /-- PUTSP, TRAP x24 (R126). -/
  | putsp
  /-- HALT, TRAP x25 (R127). -/
  | halt
  /-- RTI, unimplemented (44_unimplemented.md R140). -/
  | rti
  /-- The reserved opcode (R141). -/
  | reserved
  deriving DecidableEq, Repr

end Sys2Proof
end

