-- ==== Sys2Proof/WellFormed.lean ====
section
/-! DEFINITION. Which instruction terms are the decoder's own: every field value is legal (spec/30_encoding.md R66, R67), but the
words of JMP R7 and of TRAP x20 to x25 have terms of their own (R64: the rows with `alias_of`). -/

namespace Sys2Proof

/-- The six vectors of the trap dispatcher's table (43_trap.md R121). -/
def Instr.namedVector (v : BitVec 8) : Bool :=
  decide (0x20#8 ≤ v) && decide (v ≤ 0x25#8)

/-- Well-formed instructions: those that the decoder answers. -/
def Instr.wf : Instr → Bool
  | .jmp baseR => decide (baseR ≠ 7#3)
  | .trap v => !(Instr.namedVector v)
  | .addReg _ _ _ | .addImm _ _ _ | .andReg _ _ _ | .andImm _ _ _ | .not _ _ | .br _ _ _ _ | .ret | .jsr _ | .jsrr _
  | .ld _ _ | .ldi _ _ | .ldr _ _ _ | .lea _ _ | .st _ _ | .sti _ _ | .str _ _ _
  | .getc | .out | .puts | .inp | .putsp | .halt | .rti | .reserved => true

end Sys2Proof
end

