-- ==== Sys2Proof/Decode.lean ====
section
/-! DEFINITION. The decoder, total on all words under every opcode map (spec/30_encoding.md R61, R70), the encoder with the
unused bits at their assembler values (R62), the default opcode numbers (R64) and the rows of spec/opcode_table.json. -/

namespace Sys2Proof

/-- The default `OPCODE_MAP`: the name at each code 0x0 to 0xF (30_encoding.md R64, D1; PRESUMED, entry 3). -/
def lc3OpcodeMap : OpcodeMap :=
  #v[.br, .add, .ld, .st, .jsr, .and, .ldr, .str, .rti, .not, .ldi, .sti, .jmp, .reserved, .lea, .trap]

/-- The name a 4-bit code selects. -/
def opcodeAt (m : OpcodeMap) (code : BitVec 4) : Opcode := m[code.toNat]'(code.isLt)

/-- The code at which a name stands. -/
def codeOf (m : OpcodeMap) (op : Opcode) : BitVec 4 := BitVec.ofNat 4 (m.toList.idxOf op)

/-- `w[lo + len - 1 : lo]` (00_scope.md R7). -/
def field (w : Word) (lo len : Nat) : BitVec len := w.extractLsb' lo len

/-- `a ++ b`, a in the high bits (00_scope.md R7), as a bit vector of the width w that both have together. -/
def join {n k : Nat} (w : Nat) (a : BitVec n) (b : BitVec k) : BitVec w := (a ++ b).setWidth w

/-- `w[i]` (00_scope.md R7). -/
def bit (w : Word) (i : Nat) : Bool := w.getLsbD i

/-- JMP, or RET when BaseR = 7 (41_control.md R91, R92). -/
def decodeJmp (baseR : RegIdx) : Instr := if baseR = 7#3 then .ret else .jmp baseR

/-- TRAP, or the named service of the vectors 0x20 to 0x25 (43_trap.md R121). -/
def decodeTrap (v : BitVec 8) : Instr :=
  if v = 0x20#8 then .getc
  else if v = 0x21#8 then .out
  else if v = 0x22#8 then .puts
  else if v = 0x23#8 then .inp
  else if v = 0x24#8 then .putsp
  else if v = 0x25#8 then .halt
  else .trap v

/-- The operand fields of a word whose opcode name is known, at the fixed positions of 30_encoding.md R62. -/
def decodeAs (op : Opcode) (w : Word) : Instr :=
  match op with
  | .br => .br (bit w 11) (bit w 10) (bit w 9) (field w 0 9)
  | .add => if bit w 5 then .addImm (field w 9 3) (field w 6 3) (field w 0 5)
      else .addReg (field w 9 3) (field w 6 3) (field w 0 3)
  | .ld => .ld (field w 9 3) (field w 0 9)
  | .st => .st (field w 9 3) (field w 0 9)
  | .jsr => if bit w 11 then .jsr (field w 0 11) else .jsrr (field w 6 3)
  | .and => if bit w 5 then .andImm (field w 9 3) (field w 6 3) (field w 0 5)
      else .andReg (field w 9 3) (field w 6 3) (field w 0 3)
  | .ldr => .ldr (field w 9 3) (field w 6 3) (field w 0 6)
  | .str => .str (field w 9 3) (field w 6 3) (field w 0 6)
  | .rti => .rti
  | .not => .not (field w 9 3) (field w 6 3)
  | .ldi => .ldi (field w 9 3) (field w 0 9)
  | .sti => .sti (field w 9 3) (field w 0 9)
  | .jmp => decodeJmp (field w 6 3)
  | .reserved => .reserved
  | .lea => .lea (field w 9 3) (field w 0 9)
  | .trap => decodeTrap (field w 0 8)

/-- Decode: bits [15:12] select the opcode, which reads its own fields (30_encoding.md R61). -/
def decode (m : OpcodeMap) (w : Word) : Instr := decodeAs (opcodeAt m (field w 12 4)) w

/-- The opcode name of an instruction (30_encoding.md R64). -/
def Instr.opcode : Instr → Opcode
  | .addReg _ _ _ | .addImm _ _ _ => .add
  | .andReg _ _ _ | .andImm _ _ _ => .and
  | .not _ _ => .not
  | .br _ _ _ _ => .br
  | .jmp _ | .ret => .jmp
  | .jsr _ | .jsrr _ => .jsr
  | .ld _ _ => .ld
  | .ldi _ _ => .ldi
  | .ldr _ _ _ => .ldr
  | .lea _ _ => .lea
  | .st _ _ => .st
  | .sti _ _ => .sti
  | .str _ _ _ => .str
  | .trap _ | .getc | .out | .puts | .inp | .putsp | .halt => .trap
  | .rti => .rti
  | .reserved => .reserved

/-- Bits [11:0] of an instruction's word: the formats of 30_encoding.md R62, unused bits at their assembler values. -/
def encodeBody : Instr → BitVec 12
  | .addReg dr sr1 sr2 | .andReg dr sr1 sr2 => join 12 dr (join 9 sr1 (join 6 0b000#3 sr2))
  | .addImm dr sr1 imm5 | .andImm dr sr1 imm5 => join 12 dr (join 9 sr1 (join 6 0b1#1 imm5))
  | .not dr sr => join 12 dr (join 9 sr 0b111111#6)
  | .br n z p off => join 12 (BitVec.ofBool n) (join 11 (BitVec.ofBool z) (join 10 (BitVec.ofBool p) off))
  | .jmp baseR => join 12 0b000#3 (join 9 baseR 0b000000#6)
  | .ret => join 12 0b000#3 (join 9 0b111#3 0b000000#6)
  | .jsr off => join 12 0b1#1 off
  | .jsrr baseR => join 12 0b000#3 (join 9 baseR 0b000000#6)
  | .ld r off | .ldi r off | .lea r off | .st r off | .sti r off => join 12 r off
  | .ldr r baseR off | .str r baseR off => join 12 r (join 9 baseR off)
  | .trap v => join 12 0b0000#4 v
  | .getc => join 12 0b0000#4 0x20#8
  | .out => join 12 0b0000#4 0x21#8
  | .puts => join 12 0b0000#4 0x22#8
  | .inp => join 12 0b0000#4 0x23#8
  | .putsp => join 12 0b0000#4 0x24#8
  | .halt => join 12 0b0000#4 0x25#8
  | .rti | .reserved => 0x000#12

/-- The word of an instruction (30_encoding.md R62, R70). -/
def encode (m : OpcodeMap) (i : Instr) : Word := join 16 (codeOf m i.opcode) (encodeBody i)

/-- Where the core looks at bits [11:0] of an instruction's word (30_encoding.md R62, R66): the used bits are 1. -/
def usedBits : Instr → BitVec 12
  | .addReg _ _ _ | .andReg _ _ _ => 0b111111100111#12
  | .addImm _ _ _ | .andImm _ _ _ => 0xFFF#12
  | .not _ _ => 0b111111000000#12
  | .br _ _ _ _ | .jsr _ | .ld _ _ | .ldi _ _ | .lea _ _ | .st _ _ | .sti _ _ | .ldr _ _ _ | .str _ _ _ => 0xFFF#12
  | .jmp _ | .ret => 0b000111000000#12
  | .jsrr _ => 0b100111000000#12
  | .trap _ | .getc | .out | .puts | .inp | .putsp | .halt => 0x0FF#12
  | .rti | .reserved => 0x000#12

/-- `match` and `mask` of an instruction's row of spec/opcode_table.json (under the default opcode numbers). -/
def tableRow : Instr → Word × Word
  | .addReg _ _ _ => (0x1000#16, 0xF020#16)
  | .addImm _ _ _ => (0x1020#16, 0xF020#16)
  | .andReg _ _ _ => (0x5000#16, 0xF020#16)
  | .andImm _ _ _ => (0x5020#16, 0xF020#16)
  | .not _ _ => (0x9000#16, 0xF000#16)
  | .br _ _ _ _ => (0x0000#16, 0xF000#16)
  | .jmp _ => (0xC000#16, 0xF000#16)
  | .ret => (0xC1C0#16, 0xF1C0#16)
  | .jsr _ => (0x4800#16, 0xF800#16)
  | .jsrr _ => (0x4000#16, 0xF800#16)
  | .ld _ _ => (0x2000#16, 0xF000#16)
  | .ldi _ _ => (0xA000#16, 0xF000#16)
  | .ldr _ _ _ => (0x6000#16, 0xF000#16)
  | .lea _ _ => (0xE000#16, 0xF000#16)
  | .st _ _ => (0x3000#16, 0xF000#16)
  | .sti _ _ => (0xB000#16, 0xF000#16)
  | .str _ _ _ => (0x7000#16, 0xF000#16)
  | .trap _ => (0xF000#16, 0xF000#16)
  | .getc => (0xF020#16, 0xF0FF#16)
  | .out => (0xF021#16, 0xF0FF#16)
  | .puts => (0xF022#16, 0xF0FF#16)
  | .inp => (0xF023#16, 0xF0FF#16)
  | .putsp => (0xF024#16, 0xF0FF#16)
  | .halt => (0xF025#16, 0xF0FF#16)
  | .rti => (0x8000#16, 0xF000#16)
  | .reserved => (0xD000#16, 0xF000#16)

/-- The instruction whose bits, numbered as spec/opcode_table.json numbers them, are w: one 16-bit word, under the default
opcode numbers. An instruction longer than a word does not exist (30_encoding.md R68). -/
def decodeTableWord (nbits w : Nat) : Option Instr :=
  if nbits ≤ 16 then some (decode lc3OpcodeMap (BitVec.ofNat 16 (w % 2 ^ nbits))) else none

end Sys2Proof
end

