-- ==== Sys2Proof/Machine/Defaults.lean ====
section
/-! DEFINITION. The default values of the named parameters (spec/00_scope.md R6, 92_eei_decisions.md). -/

namespace Sys2Proof

/-- The configuration of `State.reset`. PRESUMED, from the LC-3 family as the spec takes them: entries 3 to 6. DESIGN CHOICE where the spec
names no value (`GPR_INIT`, `IN_PROMPT`): entries 7 and 10. DEDUCED, the spec's own defaults: entries 8, 9 and 11. -/
def defaultConfig : Config where
  opcodeMap := lc3OpcodeMap
  kbsrAddr := 0xFE00#16
  kbdrAddr := 0xFE02#16
  pcStart := 0x3000#16
  condReset := .z
  gprInit := #v[0#16, 0#16, 0#16, 0#16, 0#16, 0#16, 0#16, 0#16]
  jsrrLinkFirst := true
  trapInputSetsCond := false
  inPrompt := []
  haltBanner := []

end Sys2Proof
end

