-- ==== Sys2Proof/Machine/State.lean ====
section
/-! DEFINITION. The architectural state of spec/10_state.md and 20_memory.md as plain data, the reasons a step stops, and the
state after reset (70_reset_and_hazards.md). -/

namespace Sys2Proof.Machine

/-- One word of memory at an address. The smallest addressable unit is a 16-bit word and no byte order exists inside the core
(20_memory.md R49, R50), so a cell holds a word (DESIGN CHOICE, entry 1). -/
abbrev Cell := Nat × Word

/-- Memory: the words that differ from what an unlisted address reads as, addresses strictly rising (20_memory.md R40). -/
abbrev Memory := List Cell

/-- What an unlisted address reads as: memory is zeroed at reset (70_reset_and_hazards.md R170). -/
def blankWord : Word := 0x0000#16

/-- The cause of a Fatal (60_exceptions.md R151). -/
inductive FatalKind where
  | unimplementedOpcode
  | unknownTrapVector
  deriving DecidableEq, Repr

/-- `stop_cause`: why `running` last became false (10_state.md R29). -/
inductive StopCause where
  | none
  | halt
  | hostStop
  | fatal (kind : FatalKind) (instr addr : Word)
  deriving DecidableEq, Repr

/-- The two services that wait for a byte (10_state.md R34). -/
inductive InputService where
  | getc
  | inp
  deriving DecidableEq, Repr

/-- `phase`: between instructions, or inside a service that waits (10_state.md R34). -/
inductive Phase where
  | idle
  | waitIn (k : InputService)
  deriving DecidableEq, Repr

/-- A step never ends in a fault: no memory access, alignment, arithmetic or privilege fault exists (60_exceptions.md R151), and
the fatal path is a next state (R150). So there is no constructor (DEDUCED, entry 32). -/
inductive Fault where
  deriving DecidableEq, Repr

/-- Why the model gives a step or a host move no meaning. -/
inductive Refusal where
  /-- Raised by an arm of `exec` whose instruction has no meaning yet; no arm is such. Safe. -/
  | notModelled (mnemonic : String)
  /-- Raised by PUTS and PUTSP when the string reaches a device word before its terminator: the spec says that the model refuses
  the step (20_memory.md R48). Safe. -/
  | stringReachesDevice
  /-- Raised by `hostStart` after a Fatal: the host has no such move (10_state.md R29). Safe. -/
  | hostCannotResume
  /-- Raised by the host's reads, writes and loads while the core runs: the host has no such move (10_state.md R33). Safe. -/
  | hostMemoryInUse
  /-- Raised by `hostLoad` for an image that passes address 0xFFFF: such a launch is not described (92_eei_decisions.md D25). Safe. -/
  | imageTooLong
  deriving DecidableEq, Repr

/-- The machine's state. -/
structure State where
  /-- The named parameters, fixed for a launch (00_scope.md R6; DESIGN CHOICE, entry 2). -/
  cfg : Config
  /-- R0 to R7 (10_state.md R20). -/
  regs : Vector Word 8
  /-- PC (R22). -/
  pc : Word
  /-- COND (R23). -/
  cond : Cond
  /-- Memory, the two keyboard words among it (20_memory.md R40, R43). -/
  mem : Memory
  /-- `running` (10_state.md R27). -/
  running : Bool
  /-- `stop_cause` (R29). -/
  stopCause : StopCause
  /-- `phase` (R34). -/
  phase : Phase
  /-- The bytes of the input stream not yet taken, oldest first (R30). -/
  input : List Byte
  /-- The bytes of the output stream, oldest first (R31). -/
  output : List Byte
  /-- `instr`, the word last fetched (00_scope.md R7, 30_encoding.md R60; DESIGN CHOICE, entry 15). -/
  instr : Word
  /-- The model's own count of free draws (DESIGN CHOICE, entry 14). -/
  draws : Nat
  deriving DecidableEq, Repr

/-- What a step or a host move answers. -/
abbrev Result := Host.Outcome State Fault Refusal

/-- The state of a fresh core under the parameters c, with the host's input stream (70_reset_and_hazards.md R170 to R176). -/
def State.launch (c : Config) (input : List Byte) : State where
  cfg := c
  regs := c.gprInit
  pc := c.pcStart
  cond := c.condReset
  mem := []
  running := false
  stopCause := .none
  phase := .idle
  input := input
  output := []
  instr := 0x0000#16
  draws := 0

/-- The machine right after reset: the default parameters, no input supplied yet (DESIGN CHOICE, entry 20). -/
def State.reset : State := State.launch defaultConfig []

end Sys2Proof.Machine
end

