-- ==== Sys2Proof/Machine/Ops.lean ====
section
/-! DEFINITION. The named operations over memory, registers and streams (spec/10_state.md, 20_memory.md), the fetch
(30_encoding.md R60), and the two transfers out of an instruction that save a word: the trap entry's link (43_trap.md R120)
and the fatal path (60_exceptions.md R150). -/

namespace Sys2Proof.Machine

/-- The word stored under a key. -/
def Memory.wordAt : Memory → Nat → Word
  | [], _ => blankWord
  | (k, v) :: rest, a => if k = a then v else Memory.wordAt rest a

/-- Store a word under a key, keeping the canonical form. -/
def Memory.store : Memory → Nat → Word → Memory
  | [], a, w => if w = blankWord then [] else [(a, w)]
  | (k, v) :: rest, a, w =>
    if a < k then (if w = blankWord then (k, v) :: rest else (a, w) :: (k, v) :: rest)
    else if a = k then (if w = blankWord then rest else (a, w) :: rest)
    else (k, v) :: Memory.store rest a w

/-- The canonical form: addresses strictly rising and below 65,536, no word equal to the blank one. -/
def Memory.wf (m : Memory) : Bool :=
  decide (m.Pairwise (fun c d => c.1 < d.1)) && m.all (fun c => decide (c.1 < 65536) && decide (c.2 ≠ blankWord))

/-- `mem[a]` (20_memory.md R40). -/
def State.word (s : State) (a : Word) : Word := s.mem.wordAt a.toNat

/-- `mem[a] <- v` (20_memory.md R42). -/
def State.setWord (s : State) (a v : Word) : State := { s with mem := s.mem.store a.toNat v }

/-- `x[r]` (00_scope.md R7). -/
def State.reg (s : State) (r : RegIdx) : Word := s.regs[r.toNat]'(r.isLt)

/-- `x[r] <- v`. No register is hard-wired (10_state.md R20). -/
def State.setReg (s : State) (r : RegIdx) (v : Word) : State := { s with regs := s.regs.set r.toNat v r.isLt }

/-- `PC <- target`. -/
def State.setPc (s : State) (target : Word) : State := { s with pc := target }

/-- `COND <- c`. -/
def State.setCond (s : State) (c : Cond) : State := { s with cond := c }

/-- `emit(b)` for each byte of bs in order (10_state.md R31). The stream is unbuffered, so a flush does nothing more (DEDUCED, entry 29). -/
def State.emit (s : State) (bs : List Byte) : State := { s with output := s.output ++ bs }

/-- `phase <- p`. -/
def State.setPhase (s : State) (p : Phase) : State := { s with phase := p }

/-- `running <- r; stop_cause <- c`. -/
def State.setRun (s : State) (r : Bool) (c : StopCause) : State := { s with running := r, stopCause := c }

/-- The input stream's remaining bytes become bs. -/
def State.setInput (s : State) (bs : List Byte) : State := { s with input := bs }

/-- `instr <- w`. -/
def State.setInstr (s : State) (w : Word) : State := { s with instr := w }

/-- One free draw has been made (DESIGN CHOICE, entry 14). -/
def State.drawn (s : State) : State := { s with draws := s.draws + 1 }

/-- `kb_poll()`: the next byte of the stream if the host's free answer is that it is pending (10_state.md R30). -/
def kbPoll (s : State) : Option Byte × State :=
  match s.input with
  | [] => (none, s.drawn)
  | b :: rest => if Config.keyPending s.draws then (some b, (s.setInput rest).drawn) else (none, s.drawn)

/-- The word that the poll latches for a byte: the byte zero-extended (20_memory.md R43, D12). -/
def latched (b : Byte) : Word := b.setWidth 16

/-- `kbsr_poll()` (20_memory.md R43). -/
def kbsrPoll (s : State) : State :=
  match kbPoll s with
  | (some b, t) => (t.setWord t.cfg.kbsrAddr 0x8000#16).setWord t.cfg.kbdrAddr (latched b)
  | (none, t) => t.setWord t.cfg.kbsrAddr 0x0000#16

/-- The state after the interception of a read of a: a poll at `KBSR_ADDR`, nothing elsewhere (20_memory.md R41). -/
def intercept (s : State) (a : Word) : State := if a = s.cfg.kbsrAddr then kbsrPoll s else s

/-- `MemRead(a, 1)` (20_memory.md R41): the word read, and the state after the read. -/
def memRead (s : State) (a : Word) : Word × State := ((intercept s a).word a, intercept s a)

/-- `MemWrite(a, 1, v)`: stores at every address, the device words included (20_memory.md R42, R46). -/
def memWrite (s : State) (a v : Word) : State := s.setWord a v

/-- The fetch: `instr <- MemRead(PC, 1); PC <- PC + 1` (30_encoding.md R60). -/
def fetch (s : State) : State :=
  let r := memRead s s.pc
  (r.2.setInstr r.1).setPc (s.pc + 1#16)

/-- The link of JSR, JSRR and trap entry: `x[7] <- PC` (43_trap.md R120, 41_control.md R95). COND is not updated (10_state.md R25). -/
def link (s : State) : State := s.setReg 7#3 s.pc

/-- TAKING AN EXCEPTION: `raise Fatal(kind, instr)` (60_exceptions.md R150). The address is that of the faulting instruction, PC - 1.
There is no return from it (R155). -/
def raiseFatal (kind : FatalKind) (s : State) : State := s.setRun false (.fatal kind s.instr (s.pc - 1#16))

end Sys2Proof.Machine
end

