-- ==== Sys2Proof/Machine/Operands.lean ====
section
/-! DEFINITION. Operand assembly and the addressing modes (spec/00_scope.md R8 to R10, 30_encoding.md R63,
42_load_store.md R107), and the strings of PUTS and PUTSP (20_memory.md R48). -/

namespace Sys2Proof.Machine

/-- `sext_16(v[N-1:0])` (00_scope.md R8). -/
def sext {n : Nat} (v : BitVec n) : Word := v.signExtend 16

/-- `zext_16` of a byte (00_scope.md R8). -/
def zext (b : Byte) : Word := b.setWidth 16

/-- `w[7:0]`. -/
def lowByte (w : Word) : Byte := w.extractLsb' 0 8

/-- `w[15:8]`. -/
def highByte (w : Word) : Byte := w.extractLsb' 8 8

/-- `swapByteOrder` (00_scope.md R10), used only by the loader outside the core. -/
def swapByteOrder (w : Word) : Word := lowByte w ++ highByte w

/-- PC-relative: `PC + sext(offset)` modulo 2^16, PC already incremented (42_load_store.md R107, 30_encoding.md R60). -/
def pcRelative {n : Nat} (s : State) (offset : BitVec n) : Word := s.pc + sext offset

/-- Base plus offset: `x[BaseR] + sext(offset6)` modulo 2^16 (42_load_store.md R107). -/
def baseOffset (s : State) (baseR : RegIdx) (offset6 : BitVec 6) : Word := s.reg baseR + sext offset6

/-- Indirect: the pointer that `MemRead(PC + sext(PCoffset9), 1)` reads, and the state after that read (42_load_store.md R107). -/
def indirect (s : State) (offset : BitVec 9) : Word × State := memRead s (pcRelative s offset)

/-- How many words a walk upwards from a reads, modulo 2^16, before it stands at a device word. -/
def wordsBeforeDevice (c : Config) (a : Word) : Nat := min (c.kbsrAddr - a).toNat (c.kbdrAddr - a).toNat

/-- The words from a on, at most fuel of them, up to a zero word; none if there is no zero word among them. -/
def stringWalk (m : Memory) : Nat → Word → Option (List Word)
  | 0, _ => none
  | fuel + 1, a =>
    if m.wordAt a.toNat = 0x0000#16 then some []
    else (stringWalk m fuel (a + 1#16)).map (m.wordAt a.toNat :: ·)

/-- The words of the zero-terminated string at a, read as plain storage; none if the walk reaches a device word first
(20_memory.md R48; DEDUCED, entry 23). -/
def stringWords (s : State) (a : Word) : Option (List Word) := stringWalk s.mem (wordsBeforeDevice s.cfg a) a

/-- PUTSP's bytes of one word: the low byte, then the high byte unless it is zero (43_trap.md R126, D15). -/
def packedBytes (w : Word) : List Byte := if highByte w = 0x00#8 then [lowByte w] else [lowByte w, highByte w]

end Sys2Proof.Machine
end

