-- ==== Sys2Proof/Machine/Flags.lean ====
section
/-! DEFINITION. The condition flags: `setcc` (spec/10_state.md R24), the result write of the flag-setting instructions (R25), and
BR's test (41_control.md R90). -/

namespace Sys2Proof.Machine

/-- COND for the word just written (10_state.md R24). -/
def condOf (v : Word) : Cond := if v = 0x0000#16 then .z else if v.msb then .n else .p

/-- `setcc(v)`. -/
def setcc (v : Word) (s : State) : State := s.setCond (condOf v)

/-- `x[DR] <- v; setcc(v)`: the end of ADD, AND, NOT, LD, LDI, LDR and LEA (10_state.md R25). -/
def writeResult (dr : RegIdx) (v : Word) (s : State) : State := setcc v (s.setReg dr v)

/-- COND as three bits, N at bit 2, Z at bit 1, P at bit 0 (10_state.md R23). -/
def condBits : Cond → BitVec 3
  | .n => 0b100#3
  | .z => 0b010#3
  | .p => 0b001#3

/-- BR's mask, n at bit 2, z at bit 1, p at bit 0 (41_control.md R90). -/
def brMask (n z p : Bool) : BitVec 3 := BitVec.ofBool n ++ BitVec.ofBool z ++ BitVec.ofBool p

/-- `(mask & COND) != 0` (41_control.md R90). -/
def branchTaken (n z p : Bool) (c : Cond) : Bool := decide (brMask n z p &&& condBits c ≠ 0b000#3)

end Sys2Proof.Machine
end

