-- ==== Sys2Proof/Machine/Control.lean ====
section
/-! DEFINITION. BR, JMP, RET, JSR and JSRR (spec/41_control.md). PC is the address after the instruction; none writes COND. -/

namespace Sys2Proof.Machine

/-- BR (R90). -/
def execBr (n z p : Bool) (offset : BitVec 9) (s : State) : Result :=
  .next (if branchTaken n z p s.cond then s.setPc (pcRelative s offset) else s)

/-- `PC <- x[r]` (R91). -/
def jumpThrough (r : RegIdx) (s : State) : State := s.setPc (s.reg r)

/-- JMP (R91). -/
def execJmp (baseR : RegIdx) (s : State) : Result := .next (jumpThrough baseR s)

/-- RET, the JMP with BaseR = 7 (R92). -/
def execRet (s : State) : Result := .next (jumpThrough 7#3 s)

/-- JSR (R93). -/
def execJsr (offset : BitVec 11) (s : State) : Result := .next ((link s).setPc (pcRelative s offset))

/-- JSRR (R94): `JSRR_LINK_FIRST` says whether BaseR is read after the link write. -/
def execJsrr (baseR : RegIdx) (s : State) : Result :=
  .next ((link s).setPc (if s.cfg.jsrrLinkFirst then (link s).reg baseR else s.reg baseR))

end Sys2Proof.Machine
end

