-- ==== Sys2Proof/Machine/LoadStore.lean ====
section
/-! DEFINITION. LD, LDI, LDR, LEA, ST, STI and STR (spec/42_load_store.md). Every load's read is the intercepted one. -/

namespace Sys2Proof.Machine

/-- `v <- MemRead(ea, 1); x[DR] <- v; setcc(v)`. -/
def loadFrom (dr : RegIdx) (ea : Word) (s : State) : State :=
  let r := memRead s ea
  writeResult dr r.1 r.2

/-- LD (R100). -/
def execLd (dr : RegIdx) (offset : BitVec 9) (s : State) : Result := .next (loadFrom dr (pcRelative s offset) s)

/-- LDI (R101): the pointer is read, then the data. -/
def execLdi (dr : RegIdx) (offset : BitVec 9) (s : State) : Result :=
  let r := indirect s offset
  .next (loadFrom dr r.1 r.2)

/-- LDR (R102). -/
def execLdr (dr baseR : RegIdx) (offset : BitVec 6) (s : State) : Result :=
  .next (loadFrom dr (baseOffset s baseR offset) s)

/-- LEA (R103): no memory is read. -/
def execLea (dr : RegIdx) (offset : BitVec 9) (s : State) : Result := .next (writeResult dr (pcRelative s offset) s)

/-- ST (R104). -/
def execSt (sr : RegIdx) (offset : BitVec 9) (s : State) : Result :=
  .next (memWrite s (pcRelative s offset) (s.reg sr))

/-- STI (R105): the pointer read is intercepted, the store is not. -/
def execSti (sr : RegIdx) (offset : BitVec 9) (s : State) : Result :=
  let r := indirect s offset
  .next (memWrite r.2 r.1 (r.2.reg sr))

/-- STR (R106). -/
def execStr (sr baseR : RegIdx) (offset : BitVec 6) (s : State) : Result :=
  .next (memWrite s (baseOffset s baseR offset) (s.reg sr))

end Sys2Proof.Machine
end

