-- ==== Sys2Proof/Machine/Operate.lean ====
section
/-! DEFINITION. ADD, AND and NOT (spec/40_operate.md). Sources are read before the destination is written. -/

namespace Sys2Proof.Machine

/-- ADD, register mode (R80). -/
def execAddReg (dr sr1 sr2 : RegIdx) (s : State) : Result := .next (writeResult dr (s.reg sr1 + s.reg sr2) s)

/-- ADD, immediate mode (R80). -/
def execAddImm (dr sr1 : RegIdx) (imm5 : BitVec 5) (s : State) : Result :=
  .next (writeResult dr (s.reg sr1 + sext imm5) s)

/-- AND, register mode (R81). -/
def execAndReg (dr sr1 sr2 : RegIdx) (s : State) : Result := .next (writeResult dr (s.reg sr1 &&& s.reg sr2) s)

/-- AND, immediate mode (R81). -/
def execAndImm (dr sr1 : RegIdx) (imm5 : BitVec 5) (s : State) : Result :=
  .next (writeResult dr (s.reg sr1 &&& sext imm5) s)

/-- NOT (R82). -/
def execNot (dr sr : RegIdx) (s : State) : Result := .next (writeResult dr (~~~ s.reg sr) s)

end Sys2Proof.Machine
end

