-- ==== Sys2Proof/Machine/Trap.lean ====
section
/-! DEFINITION. TRAP, its dispatcher and the six built-in services (spec/43_trap.md). Trap entry saves PC in R7 (R120); the return is
implicit, PC is left after the TRAP (R129). -/

namespace Sys2Proof.Machine

/-- GETC, first transition: wait for a byte (R122). -/
def serviceGetc (s : State) : Result := .next (s.setPhase (.waitIn .getc))

/-- OUT (R123). -/
def serviceOut (s : State) : Result := .next (s.emit [lowByte (s.reg 0#3)])

/-- A service that writes the string at R0: emit the bytes that f makes of its words, or refuse (R124, R126, 20_memory.md R48). -/
def writeString (f : Word → List Byte) (s : State) : Result :=
  match stringWords s (s.reg 0#3) with
  | some ws => .next (s.emit (ws.flatMap f))
  | none => .refused .stringReachesDevice

/-- PUTS: the low byte of each word (R124). -/
def servicePuts (s : State) : Result := writeString (fun w => [lowByte w]) s

/-- IN, first transition: the prompt, then wait for a byte (R125). -/
def serviceIn (s : State) : Result := .next ((s.emit s.cfg.inPrompt).setPhase (.waitIn .inp))

/-- PUTSP: two bytes a word (R126). -/
def servicePutsp (s : State) : Result := writeString packedBytes s

/-- HALT (R127): PC afterwards is a free value. -/
def serviceHalt (s : State) : Result :=
  .next ((((s.emit s.cfg.haltBanner).setRun false .halt).setPc (Config.pcAfterHalt s.draws)).drawn)

/-- A vector with no service (R128). -/
def unknownVector (s : State) : Result := .next (raiseFatal .unknownTrapVector s)

/-- The trap dispatcher (R121). -/
def dispatchTrap (v : BitVec 8) (s : State) : Result :=
  if v = 0x20#8 then serviceGetc s
  else if v = 0x21#8 then serviceOut s
  else if v = 0x22#8 then servicePuts s
  else if v = 0x23#8 then serviceIn s
  else if v = 0x24#8 then servicePutsp s
  else if v = 0x25#8 then serviceHalt s
  else unknownVector s

/-- TRAP with any vector (R120). -/
def execTrap (v : BitVec 8) (s : State) : Result := dispatchTrap v (link s)

/-- GETC, TRAP x20 (R122). -/
def execGetc (s : State) : Result := serviceGetc (link s)

/-- OUT, TRAP x21 (R123). -/
def execOut (s : State) : Result := serviceOut (link s)

/-- PUTS, TRAP x22 (R124). -/
def execPuts (s : State) : Result := servicePuts (link s)

/-- IN, TRAP x23 (R125). -/
def execIn (s : State) : Result := serviceIn (link s)

/-- PUTSP, TRAP x24 (R126). -/
def execPutsp (s : State) : Result := servicePutsp (link s)

/-- HALT, TRAP x25 (R127). -/
def execHalt (s : State) : Result := serviceHalt (link s)

/-- The bytes a service echoes when a byte arrives: IN echoes it, GETC does not (R122, R125). -/
def echoOf : InputService → Byte → List Byte
  | .getc, _ => []
  | .inp, b => [b]

/-- The input write of GETC and IN: `x[0] <- zext(b)`, with COND only if `TRAP_INPUT_SETS_COND` (R122, D9). -/
def writeInput (b : Byte) (s : State) : State :=
  if s.cfg.trapInputSetsCond then writeResult 0#3 (zext b) s else s.setReg 0#3 (zext b)

/-- GETC and IN, second transition: take a byte (`kb_get`), echo, write R0, return. With no byte supplied the core holds
(R122, R125, 10_state.md R30; DESIGN CHOICE, entry 16). -/
def resumeInput (k : InputService) (s : State) : Result :=
  match s.input with
  | [] => .next s
  | b :: rest => .next ((writeInput b ((s.setInput rest).emit (echoOf k b))).setPhase .idle)

end Sys2Proof.Machine
end

