-- ==== Sys2Proof/Machine/Unimplemented.lean ====
section
/-! DEFINITION. The two opcodes with no behaviour of their own: both take the fatal path (spec/44_unimplemented.md). -/

namespace Sys2Proof.Machine

/-- RTI (R140). -/
def execRti (s : State) : Result := .next (raiseFatal .unimplementedOpcode s)

/-- The reserved opcode (R141). -/
def execReserved (s : State) : Result := .next (raiseFatal .unimplementedOpcode s)

end Sys2Proof.Machine
end

