-- ==== Sys2Proof/Machine/Dispatch.lean ====
section
/-! DEFINITION. The meaning of every instruction (spec/10_state.md R35, EXECUTE): the state is the one after fetch and PC increment. -/

namespace Sys2Proof.Machine

def exec (i : Instr) (s : State) : Host.Outcome State Fault Refusal :=
  match i with
  | .addReg dr sr1 sr2 => Sys2Proof.Machine.execAddReg dr sr1 sr2 s
  | .addImm dr sr1 imm5 => Sys2Proof.Machine.execAddImm dr sr1 imm5 s
  | .andReg dr sr1 sr2 => Sys2Proof.Machine.execAndReg dr sr1 sr2 s
  | .andImm dr sr1 imm5 => Sys2Proof.Machine.execAndImm dr sr1 imm5 s
  | .not dr sr => Sys2Proof.Machine.execNot dr sr s
  | .br n z p offset => Sys2Proof.Machine.execBr n z p offset s
  | .jmp baseR => Sys2Proof.Machine.execJmp baseR s
  | .ret => Sys2Proof.Machine.execRet s
  | .jsr offset => Sys2Proof.Machine.execJsr offset s
  | .jsrr baseR => Sys2Proof.Machine.execJsrr baseR s
  | .ld dr offset => Sys2Proof.Machine.execLd dr offset s
  | .ldi dr offset => Sys2Proof.Machine.execLdi dr offset s
  | .ldr dr baseR offset => Sys2Proof.Machine.execLdr dr baseR offset s
  | .lea dr offset => Sys2Proof.Machine.execLea dr offset s
  | .st sr offset => Sys2Proof.Machine.execSt sr offset s
  | .sti sr offset => Sys2Proof.Machine.execSti sr offset s
  | .str sr baseR offset => Sys2Proof.Machine.execStr sr baseR offset s
  | .trap v => Sys2Proof.Machine.execTrap v s
  | .getc => Sys2Proof.Machine.execGetc s
  | .out => Sys2Proof.Machine.execOut s
  | .puts => Sys2Proof.Machine.execPuts s
  | .inp => Sys2Proof.Machine.execIn s
  | .putsp => Sys2Proof.Machine.execPutsp s
  | .halt => Sys2Proof.Machine.execHalt s
  | .rti => Sys2Proof.Machine.execRti s
  | .reserved => Sys2Proof.Machine.execReserved s

end Sys2Proof.Machine
end

