-- ==== Sys2Proof/Machine/Step.lean ====
section
/-! DEFINITION. One `step()` (spec/10_state.md R35), and the state in which the next step fetches a given instruction. -/

namespace Sys2Proof.Machine

/-- `step()`: nothing while stopped; the waiting service's second transition; else fetch, decode, execute (10_state.md R35). -/
def step (s : State) : Host.Outcome State Fault Refusal :=
  if s.running then
    match s.phase with
    | .waitIn k => resumeInput k s
    | .idle => exec (decode s.cfg.opcodeMap (fetch s).instr) (fetch s)
  else .next s

/-- s with the instruction word w placed where the next step fetches, and the core started and between instructions (DEDUCED, entry 19). A fetch from
`KBSR_ADDR` reads a polled word and not the stored one (20_memory.md R43), so there PC moves on by one. -/
def State.withFetchWord (s : State) (nbits w : Nat) : State :=
  let a := if s.pc = s.cfg.kbsrAddr then s.pc + 1#16 else s.pc
  ((((s.setWord a (BitVec.ofNat 16 (w % 2 ^ nbits))).setPc a).setRun true .none).setPhase .idle)

end Sys2Proof.Machine
end

