-- ==== Sys2Proof/Machine/HostPort.lean ====
section
/-! DEFINITION. The host's side of the interface (spec/10_state.md R29 to R33, 20_memory.md R52): one function per move. A move lands
between two steps of the core; which comes when is the host's choice (60_exceptions.md R154; DESIGN CHOICE, entry 21). -/

namespace Sys2Proof.Machine

/-- What the host can do to the core. -/
inductive HostMove where
  /-- Supply the next byte of the input stream (10_state.md R30). -/
  | supply (b : Byte)
  /-- Request a stop (R32). -/
  | stop
  /-- Write `running` <- true (R33). -/
  | start
  /-- `read(address)` (R33). -/
  | read (a : Word)
  /-- `write(address, value)` (R33). -/
  | write (a v : Word)
  deriving DecidableEq, Repr

/-- The byte joins the end of the stream (10_state.md R30). -/
def hostSupply (b : Byte) (s : State) : State := s.setInput (s.input ++ [b])

/-- The stop request: `running <- false; stop_cause <- HostStop; phase <- Idle` (10_state.md R32), a waiting service is abandoned. A Fatal
`stop_cause` is sticky, so after one nothing changes (R29; DEDUCED, entry 22). -/
def hostStop (s : State) : State :=
  match s.stopCause with
  | .fatal _ _ _ => s
  | _ => (s.setRun false .hostStop).setPhase .idle

/-- `running <- true; stop_cause <- None`, which the host may not do after a Fatal (10_state.md R29, R33). -/
def hostStart (s : State) : Result :=
  match s.stopCause with
  | .fatal _ _ _ => .refused .hostCannotResume
  | _ => .next (s.setRun true .none)

/-- The host uses memory only while `running` = false and `phase` = Idle (10_state.md R33, D22). -/
def hostMayUseMemory (s : State) : Bool := !s.running && decide (s.phase = .idle)

/-- What `read(address)` returns: the intercepted read's word (20_memory.md R41). -/
def hostReadValue (a : Word) (s : State) : Word := (memRead s a).1

/-- `read(address)`: the state after the intercepted read (20_memory.md R41). -/
def hostRead (a : Word) (s : State) : Result :=
  if hostMayUseMemory s then .next (memRead s a).2 else .refused .hostMemoryInUse

/-- `write(address, value)` (20_memory.md R42). -/
def hostWrite (a v : Word) (s : State) : Result :=
  if hostMayUseMemory s then .next (memWrite s a v) else .refused .hostMemoryInUse

/-- One move of the host. -/
def hostMove (m : HostMove) (s : State) : Result :=
  match m with
  | .supply b => .next (hostSupply b s)
  | .stop => .next (hostStop s)
  | .start => hostStart s
  | .read a => hostRead a s
  | .write a v => hostWrite a v s

/-- Image word k goes to `origin + k` (20_memory.md R52). -/
def storeImage : Word → List Word → State → State
  | _, [], s => s
  | a, w :: rest, s => storeImage (a + 1#16) rest (memWrite s a w)

/-- The loader's interface: the words of an image, already in native order, written from the origin on (20_memory.md R52); an image that
does not fit below 0x10000 is refused (D25; DEDUCED, entry 31). -/
def hostLoad (origin : Word) (image : List Word) (s : State) : Result :=
  if hostMayUseMemory s then
    if origin.toNat + image.length ≤ 65536 then .next (storeImage origin image s) else .refused .imageTooLong
  else .refused .hostMemoryInUse

end Sys2Proof.Machine
end

