-- ==== Sys2Proof/Safety.lean ====
section
/-! DEFINITION. The terms that claims use: the invariant of the state, the outcomes of a run (spec/60_exceptions.md R163), runs in which
the host and the core take turns in any order (R154), what an instruction may write (10_state.md R21, R25), and frames. -/

namespace Sys2Proof.Machine

/-- What holds of every state that a launch can reach: memory and configuration are well formed; a running core has no stop cause
(10_state.md R29); a stopped core is between instructions; a waiting service's link and return address agree (R32). -/
abbrev State.Inv (s : State) : Prop :=
  s.mem.wf = true ∧ s.cfg.wf = true ∧ (s.running = true → s.stopCause = .none) ∧ (s.running = false → s.phase = .idle) ∧
    (s.phase ≠ .idle → s.reg 7#3 = s.pc)

/-- Where a run stands (60_exceptions.md R163). R163's other two outcomes are no states: Refused is an outcome of a step or of `runEvents`,
Diverging is `Diverging` below. -/
inductive RunStatus where
  | notStarted
  | running
  | held
  | halted
  | stoppedByHost
  | faulted
  deriving DecidableEq, Repr

/-- The status of a state: held while a service waits and no byte is supplied; stopped states by their cause. -/
def State.status (s : State) : RunStatus :=
  if s.running then
    match s.phase, s.input with
    | .waitIn _, [] => .held
    | _, _ => .running
  else
    match s.stopCause with
    | .none => .notStarted
    | .halt => .halted
    | .hostStop => .stoppedByHost
    | .fatal _ _ _ => .faulted

/-- Only Halted is a successful end (60_exceptions.md R163). -/
abbrev State.Successful (s : State) : Prop := s.status = .halted

/-- One event of a run: a step of the core or a move of the host. -/
inductive Event where
  | step
  | host (m : HostMove)
  deriving DecidableEq, Repr

/-- What an event does. -/
def transition (e : Event) (s : State) : Result :=
  match e with
  | .step => step s
  | .host m => hostMove m s

/-- A run: the events in the order the host chose (60_exceptions.md R154), up to the first refusal. -/
def runEvents : List Event → State → Result
  | [], s => .next s
  | e :: rest, s =>
    match transition e s with
    | .next t => runEvents rest t
    | .fault r => .fault r
    | .refused r => .refused r

/-- A step of the core is enabled: it runs, and it does not wait for a byte that is not there (60_exceptions.md R163, 43_trap.md R122). -/
abbrev State.Enabled (s : State) : Prop := s.status = .running

/-- The states t n, from s on, of the endless run in which event number n is e n: no event is refused, and the core is never stopped. -/
def EndlessRun (s : State) (e : Nat → Event) (t : Nat → State) : Prop :=
  t 0 = s ∧ ∀ n, (t n).running = true ∧ transition (e n) (t n) = .next (t (n + 1))

/-- DIVERGING: an infinite sequence of steps (60_exceptions.md R163). The run from s with the events e never ends, and however far it has
come, an enabled step of the core is still to come; so neither a stopped core nor one held for ever diverges, although `step` answers
`.next` in both (DEDUCED, entry 37). -/
def Diverging (s : State) (e : Nat → Event) : Prop :=
  ∃ t, EndlessRun s e t ∧ ∀ n, ∃ m, n ≤ m ∧ e m = .step ∧ (t m).Enabled

/-- An outcome with its next state changed by f. -/
def mapNext (f : State → State) : Result → Result
  | .next s => .next (f s)
  | .fault r => .fault r
  | .refused r => .refused r

/-- The registers an instruction's `exec` may write (10_state.md R21). GETC and IN write R0 later, when the byte arrives. -/
def regsWritten : Instr → List RegIdx
  | .addReg dr _ _ | .addImm dr _ _ | .andReg dr _ _ | .andImm dr _ _ | .not dr _ => [dr]
  | .ld dr _ | .ldi dr _ | .ldr dr _ _ | .lea dr _ => [dr]
  | .jsr _ | .jsrr _ | .trap _ | .getc | .out | .puts | .inp | .putsp | .halt => [7#3]
  | .br _ _ _ _ | .jmp _ | .ret | .st _ _ | .sti _ _ | .str _ _ _ | .rti | .reserved => []

/-- The destination of the instructions that call `setcc` (10_state.md R25). -/
def flagSetter : Instr → Option RegIdx
  | .addReg dr _ _ | .addImm dr _ _ | .andReg dr _ _ | .andImm dr _ _ | .not dr _ => some dr
  | .ld dr _ | .ldi dr _ | .ldr dr _ _ | .lea dr _ => some dr
  | .jsr _ | .jsrr _ | .trap _ | .getc | .out | .puts | .inp | .putsp | .halt
  | .br _ _ _ _ | .jmp _ | .ret | .st _ _ | .sti _ _ | .str _ _ _ | .rti | .reserved => none

/-- The instructions that may write PC after the fetch (10_state.md R22). -/
def writesPc : Instr → Bool
  | .br _ _ _ _ | .jmp _ | .ret | .jsr _ | .jsrr _ | .halt => true
  | .trap v => decide (v = 0x25#8)
  | .addReg _ _ _ | .addImm _ _ _ | .andReg _ _ _ | .andImm _ _ _ | .not _ _ | .ld _ _ | .ldi _ _ | .ldr _ _ _ | .lea _ _
  | .st _ _ | .sti _ _ | .str _ _ _ | .getc | .out | .puts | .inp | .putsp | .rti | .reserved => false

/-- The address an instruction stores to (42_load_store.md R104 to R106). -/
def storeAddress (i : Instr) (s : State) : Option Word :=
  match i with
  | .st _ off => some (pcRelative s off)
  | .sti _ off => some (indirect s off).1
  | .str _ baseR off => some (baseOffset s baseR off)
  | _ => none

/-- The word of COND for a value: Z for zero, N for negative, P for positive (10_state.md R24), and no other. -/
def FlagsOf (c : Cond) (v : Word) : Prop := (c = .z ↔ v.toNat = 0) ∧ (c = .n ↔ v.toInt < 0) ∧ (c = .p ↔ 0 < v.toInt)

/-- The same parameters, run state, phase and instruction word. -/
def SameControl (s t : State) : Prop :=
  t.cfg = s.cfg ∧ t.running = s.running ∧ t.stopCause = s.stopCause ∧ t.phase = s.phase ∧ t.instr = s.instr

/-- The same streams, and no free draw made. -/
def SameStreams (s t : State) : Prop := t.input = s.input ∧ t.output = s.output ∧ t.draws = s.draws

/-- Every word of memory reads as before. -/
def SameMemory (s t : State) : Prop := ∀ a, t.word a = s.word a

/-- Every register reads as before. -/
def SameRegs (s t : State) : Prop := ∀ r, t.reg r = s.reg r

/-- Every register but d reads as before. -/
def SameRegsBut (d : RegIdx) (s t : State) : Prop := ∀ r, r ≠ d → t.reg r = s.reg r

/-- t is s but for the register dr and COND. -/
def OnlyResult (dr : RegIdx) (s t : State) : Prop :=
  SameRegsBut dr s t ∧ t.pc = s.pc ∧ SameMemory s t ∧ SameControl s t ∧ SameStreams s t

/-- t is s but for PC. -/
def OnlyPc (s t : State) : Prop :=
  SameRegs s t ∧ t.cond = s.cond ∧ SameMemory s t ∧ SameControl s t ∧ SameStreams s t

/-- t is s but for PC and the link register R7. -/
def OnlyPcAndLink (s t : State) : Prop :=
  SameRegsBut 7#3 s t ∧ t.cond = s.cond ∧ SameMemory s t ∧ SameControl s t ∧ SameStreams s t

/-- t is s but for the one word v stored at a. -/
def OnlyStored (a v : Word) (s t : State) : Prop :=
  (∀ x, t.word x = if x = a then v else s.word x) ∧ SameRegs s t ∧ t.cond = s.cond ∧ t.pc = s.pc ∧ SameControl s t ∧
    SameStreams s t

/-- t is s but for the link in R7 and the bytes bs at the end of the output. -/
def OnlyLinkAndOutput (bs : List Byte) (s t : State) : Prop :=
  t.reg 7#3 = s.pc ∧ SameRegsBut 7#3 s t ∧ t.cond = s.cond ∧ t.pc = s.pc ∧ SameMemory s t ∧ SameControl s t ∧
    t.input = s.input ∧ t.output = s.output ++ bs ∧ t.draws = s.draws

/-- t is s on the fatal path: stopped, with the instruction word and its address recorded (60_exceptions.md R150); the registers
are left to the statement. -/
def FatalFrom (kind : FatalKind) (s t : State) : Prop :=
  t.running = false ∧ t.stopCause = .fatal kind s.instr (s.pc - 1#16) ∧ t.cond = s.cond ∧ t.pc = s.pc ∧ SameMemory s t ∧
    t.cfg = s.cfg ∧ t.phase = s.phase ∧ t.instr = s.instr ∧ SameStreams s t

/-- An address with device behaviour (20_memory.md R53). -/
def IsDevice (s : State) (a : Word) : Prop := a = s.cfg.kbsrAddr ∨ a = s.cfg.kbdrAddr

/-- The non-zero words ws stand from a on, then a zero word, and no word of these is a device word (20_memory.md R48). -/
def StringAt (s : State) : Word → List Word → Prop
  | a, [] => ¬ IsDevice s a ∧ s.word a = 0x0000#16
  | a, w :: rest => ¬ IsDevice s a ∧ s.word a = w ∧ w ≠ 0x0000#16 ∧ StringAt s (a + 1#16) rest

/-- The non-zero words ws stand from a on, and then a device word (20_memory.md R48). -/
def StringBlocked (s : State) : Word → List Word → Prop
  | a, [] => IsDevice s a
  | a, w :: rest => ¬ IsDevice s a ∧ s.word a = w ∧ w ≠ 0x0000#16 ∧ StringBlocked s (a + 1#16) rest

end Sys2Proof.Machine
end

