-- ==== Sys2Proof/Certificates/Slice0/Obligations.lean ====
section
/-! DEFINITION. Statements for the provers. In a statement about `exec i s`, s is the state after the fetch: `s.pc` is the address of the
word after the instruction and `s.instr` the word fetched (spec/10_state.md R35, 30_encoding.md R60). A statement over all states covers
all values of the named parameters, which are the field `cfg` (entry 2), and of the free draws (entry 14). -/

open Sys2Proof Sys2Proof.Machine

/-! ## Encoding -/

/-- One word per row of the opcode table, most of them the examples of spec/40 to 44, under the default opcode numbers (D1). -/
def Obligations.SampleWordsDecode : Prop :=
  decode lc3OpcodeMap 0x1642#16 = .addReg 3#3 1#3 2#3 ∧ decode lc3OpcodeMap 0x143F#16 = .addImm 2#3 0#3 0b11111#5 ∧
  decode lc3OpcodeMap 0x5283#16 = .andReg 1#3 2#3 3#3 ∧ decode lc3OpcodeMap 0x5020#16 = .andImm 0#3 0#3 0#5 ∧
  decode lc3OpcodeMap 0x997F#16 = .not 4#3 5#3 ∧ decode lc3OpcodeMap 0x0403#16 = .br false true false 3#9 ∧
  decode lc3OpcodeMap 0xC080#16 = .jmp 2#3 ∧ decode lc3OpcodeMap 0xC1C0#16 = .ret ∧
  decode lc3OpcodeMap 0x4810#16 = .jsr 16#11 ∧ decode lc3OpcodeMap 0x40C0#16 = .jsrr 3#3 ∧
  decode lc3OpcodeMap 0x2205#16 = .ld 1#3 5#9 ∧ decode lc3OpcodeMap 0xA003#16 = .ldi 0#3 3#9 ∧
  decode lc3OpcodeMap 0x62BF#16 = .ldr 1#3 2#3 0b111111#6 ∧ decode lc3OpcodeMap 0xE7FE#16 = .lea 3#3 0b111111110#9 ∧
  decode lc3OpcodeMap 0x3401#16 = .st 2#3 1#9 ∧ decode lc3OpcodeMap 0xB801#16 = .sti 4#3 1#9 ∧
  decode lc3OpcodeMap 0x771F#16 = .str 3#3 4#3 31#6 ∧ decode lc3OpcodeMap 0xF026#16 = .trap 0x26#8 ∧
  decode lc3OpcodeMap 0xF020#16 = .getc ∧ decode lc3OpcodeMap 0xF021#16 = .out ∧
  decode lc3OpcodeMap 0xF022#16 = .puts ∧ decode lc3OpcodeMap 0xF023#16 = .inp ∧
  decode lc3OpcodeMap 0xF024#16 = .putsp ∧ decode lc3OpcodeMap 0xFF25#16 = .halt ∧
  decode lc3OpcodeMap 0x8FFF#16 = .rti ∧ decode lc3OpcodeMap 0xD123#16 = .reserved

/-- Decode of encode is the instruction, under every opcode map that names each opcode once (30_encoding.md R70). -/
def Obligations.DecodeOfEncode : Prop :=
  ∀ (m : OpcodeMap) (i : Instr), m.wf = true → i.wf = true → decode m (encode m i) = i

/-- Encode of decode gives back the opcode and every used bit of the word (30_encoding.md R62, R66). -/
def Obligations.EncodeOfDecodeOnUsedBits : Prop :=
  ∀ (m : OpcodeMap) (w : Word), m.wf = true →
    field (encode m (decode m w)) 12 4 = field w 12 4 ∧
    field (encode m (decode m w)) 0 12 &&& usedBits (decode m w) = field w 0 12 &&& usedBits (decode m w)

/-- Words that differ in unused bits only decode alike (30_encoding.md R66, D7; entry 25). -/
def Obligations.UnusedBitsIgnored : Prop :=
  ∀ (m : OpcodeMap) (w w' : Word), field w' 12 4 = field w 12 4 →
    field w' 0 12 &&& usedBits (decode m w) = field w 0 12 &&& usedBits (decode m w) → decode m w' = decode m w

/-- Every word matches the row of spec/opcode_table.json of the instruction it decodes to, under the default numbers (D1). -/
def Obligations.DecodedWordMatchesTableRow : Prop :=
  ∀ w : Word, w &&& (tableRow (decode lc3OpcodeMap w)).2 = (tableRow (decode lc3OpcodeMap w)).1

/-- The decoder is total and answers well-formed instructions of the opcode that bits [15:12] select (30_encoding.md R61, R64). -/
def Obligations.DecodeSelectsByOpcode : Prop :=
  ∀ (m : OpcodeMap) (w : Word), (decode m w).opcode = opcodeAt m (field w 12 4) ∧ (decode m w).wf = true

/-! ## Operands and flags -/

/-- 00_scope.md R8: the low n bits of a sign extension are those of the value, the others its top bit; zero extension pads with zeros. -/
def Obligations.ExtensionFillsHighBits : Prop :=
  (∀ (n : Nat) (v : BitVec n) (i : Nat), 1 ≤ n → n ≤ 16 → i < 16 →
    (sext v).getLsbD i = if i < n then v.getLsbD i else v.getLsbD (n - 1)) ∧
  (∀ (b : Byte) (i : Nat), i < 16 → (zext b).getLsbD i = if i < 8 then b.getLsbD i else false)

/-- 20_memory.md R47: effective addresses are sums modulo 65,536, PC + offset, BaseR + offset and the string walk alike, and no memory access
faults: every load and store answers a next state, whatever address it computes or reads as a pointer. -/
def Obligations.EffectiveAddressesWrap : Prop :=
  (∀ (s : State) (off : BitVec 9), ((pcRelative s off).toNat : Int) = ((s.pc.toNat : Int) + off.toInt) % 65536) ∧
  (∀ (s : State) (off : BitVec 11), ((pcRelative s off).toNat : Int) = ((s.pc.toNat : Int) + off.toInt) % 65536) ∧
  (∀ (s : State) (r : RegIdx) (off : BitVec 6),
    ((baseOffset s r off).toNat : Int) = (((s.reg r).toNat : Int) + off.toInt) % 65536) ∧
  (∀ (s : State) (a : Word), ¬ IsDevice s a → s.word a ≠ 0x0000#16 →
    stringWords s a = (stringWords s (BitVec.ofNat 16 ((a.toNat + 1) % 65536))).map (s.word a :: ·)) ∧
  (∀ (r : RegIdx) (off : BitVec 9) (s : State), (∃ t, exec (.ld r off) s = .next t) ∧ (∃ t, exec (.ldi r off) s = .next t) ∧
    (∃ t, exec (.st r off) s = .next t) ∧ (∃ t, exec (.sti r off) s = .next t)) ∧
  (∀ (r b : RegIdx) (off : BitVec 6) (s : State), (∃ t, exec (.ldr r b off) s = .next t) ∧ (∃ t, exec (.str r b off) s = .next t))

/-- 10_state.md R24: `setcc` is a plain assignment of Z, N or P, and changes nothing else. -/
def Obligations.SetccAssignsSign : Prop :=
  ∀ (v : Word) (s : State), ∃ c, setcc v s = s.setCond c ∧ FlagsOf c v ∧ (setcc v s).cond = c

/-! ## Operate instructions -/

/-- 40_operate.md R80: ADD in both modes, its operand fields, the sum modulo 2^16, COND, and nothing else. -/
def Obligations.AddSumsModuloWord : Prop :=
  (∀ (m : OpcodeMap) (w : Word), opcodeAt m (field w 12 4) = .add → decode m w =
    if bit w 5 then .addImm (field w 9 3) (field w 6 3) (field w 0 5) else .addReg (field w 9 3) (field w 6 3) (field w 0 3)) ∧
  (∀ (dr sr1 sr2 : RegIdx) (s : State), ∃ t, exec (.addReg dr sr1 sr2) s = .next t ∧
    (t.reg dr).toNat = ((s.reg sr1).toNat + (s.reg sr2).toNat) % 65536 ∧ FlagsOf t.cond (t.reg dr) ∧ OnlyResult dr s t) ∧
  (∀ (dr sr1 : RegIdx) (imm5 : BitVec 5) (s : State), ∃ t, exec (.addImm dr sr1 imm5) s = .next t ∧
    ((t.reg dr).toNat : Int) = (((s.reg sr1).toNat : Int) + imm5.toInt) % 65536 ∧ FlagsOf t.cond (t.reg dr) ∧
    OnlyResult dr s t)

/-- 40_operate.md R81: AND in both modes, bit by bit; the immediate's bit 4 stands for all higher bits. -/
def Obligations.AndIsBitwise : Prop :=
  (∀ (m : OpcodeMap) (w : Word), opcodeAt m (field w 12 4) = .and → decode m w =
    if bit w 5 then .andImm (field w 9 3) (field w 6 3) (field w 0 5) else .andReg (field w 9 3) (field w 6 3) (field w 0 3)) ∧
  (∀ (dr sr1 sr2 : RegIdx) (s : State), ∃ t, exec (.andReg dr sr1 sr2) s = .next t ∧
    (∀ i, (t.reg dr).getLsbD i = ((s.reg sr1).getLsbD i && (s.reg sr2).getLsbD i)) ∧ FlagsOf t.cond (t.reg dr) ∧
    OnlyResult dr s t) ∧
  (∀ (dr sr1 : RegIdx) (imm5 : BitVec 5) (s : State), ∃ t, exec (.andImm dr sr1 imm5) s = .next t ∧
    (∀ i, i < 16 → (t.reg dr).getLsbD i = ((s.reg sr1).getLsbD i && (if i < 5 then imm5.getLsbD i else imm5.getLsbD 4))) ∧
    FlagsOf t.cond (t.reg dr) ∧ OnlyResult dr s t)

/-- 40_operate.md R82: NOT complements every bit. -/
def Obligations.NotComplements : Prop :=
  (∀ (m : OpcodeMap) (w : Word), opcodeAt m (field w 12 4) = .not → decode m w = .not (field w 9 3) (field w 6 3)) ∧
  (∀ (dr sr : RegIdx) (s : State), ∃ t, exec (.not dr sr) s = .next t ∧
    (∀ i, i < 16 → (t.reg dr).getLsbD i = !((s.reg sr).getLsbD i)) ∧ FlagsOf t.cond (t.reg dr) ∧ OnlyResult dr s t)

/-! ## Control transfer -/

/-- 41_control.md R90: BR goes to PC + PCoffset9 modulo 2^16 if and only if the bit of the mask that COND names is set. -/
def Obligations.BranchOnNamedCondition : Prop :=
  (∀ (m : OpcodeMap) (w : Word), opcodeAt m (field w 12 4) = .br →
    decode m w = .br (bit w 11) (bit w 10) (bit w 9) (field w 0 9)) ∧
  (∀ (n z p : Bool) (off : BitVec 9) (s : State), ∃ t, exec (.br n z p off) s = .next t ∧
    t.pc = (if (n = true ∧ s.cond = .n) ∨ (z = true ∧ s.cond = .z) ∨ (p = true ∧ s.cond = .p)
      then BitVec.ofInt 16 ((s.pc.toNat : Int) + off.toInt) else s.pc) ∧ OnlyPc s t)

/-- 41_control.md R91 and R92: JMP goes to the base register's value; RET is JMP with BaseR = 7, has no behaviour of its own, and its word with
zero unused bits carries 0x1C0 below the opcode of JMP. That RET is a constructor of its own, which the decoder answers for BaseR = 7, is the
model's choice (entry 26). -/
def Obligations.JumpGoesToBase : Prop :=
  (∀ (m : OpcodeMap) (w : Word), opcodeAt m (field w 12 4) = .jmp →
    decode m w = if field w 6 3 = 7#3 then .ret else .jmp (field w 6 3)) ∧
  (∀ (baseR : RegIdx) (s : State), ∃ t, exec (.jmp baseR) s = .next t ∧ t.pc = s.reg baseR ∧ OnlyPc s t) ∧
  (∀ s : State, ∃ t, exec .ret s = .next t ∧ t.pc = s.reg 7#3 ∧ OnlyPc s t ∧ exec .ret s = exec (.jmp 7#3) s) ∧
  (∀ m : OpcodeMap, encode m .ret = join 16 (codeOf m .jmp) 0x1C0#12)

/-- 41_control.md R93: JSR links PC in R7 and goes to PC + PCoffset11 modulo 2^16. -/
def Obligations.JsrLinksAndBranches : Prop :=
  (∀ (m : OpcodeMap) (w : Word), opcodeAt m (field w 12 4) = .jsr → bit w 11 = true → decode m w = .jsr (field w 0 11)) ∧
  (∀ (off : BitVec 11) (s : State), ∃ t, exec (.jsr off) s = .next t ∧ t.reg 7#3 = s.pc ∧
    t.pc = BitVec.ofInt 16 ((s.pc.toNat : Int) + off.toInt) ∧ OnlyPcAndLink s t)

/-- 41_control.md R94: JSRR links PC in R7 and goes to the base register's value; for BaseR = 7 the parameter `JSRR_LINK_FIRST` says
whether that value is the link just written or the old R7 (D8; entry 8). -/
def Obligations.JsrrLinksAndJumps : Prop :=
  (∀ (m : OpcodeMap) (w : Word), opcodeAt m (field w 12 4) = .jsr → bit w 11 = false → decode m w = .jsrr (field w 6 3)) ∧
  (∀ (baseR : RegIdx) (s : State), ∃ t, exec (.jsrr baseR) s = .next t ∧ t.reg 7#3 = s.pc ∧
    t.pc = (if baseR = 7#3 ∧ s.cfg.jsrrLinkFirst = true then s.pc else s.reg baseR) ∧ OnlyPcAndLink s t)

/-! ## Loads and stores -/

/-- 42_load_store.md R100: LD reads PC + PCoffset9 through `MemRead`; r is what the read gives and the state it leaves. -/
def Obligations.LdLoadsPcRelative : Prop :=
  (∀ (m : OpcodeMap) (w : Word), opcodeAt m (field w 12 4) = .ld → decode m w = .ld (field w 9 3) (field w 0 9)) ∧
  (∀ (dr : RegIdx) (off : BitVec 9) (s : State), ∃ t, exec (.ld dr off) s = .next t ∧
    ∃ r, r = memRead s (BitVec.ofInt 16 ((s.pc.toNat : Int) + off.toInt)) ∧
      t.reg dr = r.1 ∧ FlagsOf t.cond r.1 ∧ OnlyResult dr r.2 t)

/-- 42_load_store.md R101: LDI makes exactly two reads through `MemRead`, the pointer's and then the data's. -/
def Obligations.LdiLoadsThroughPointer : Prop :=
  (∀ (m : OpcodeMap) (w : Word), opcodeAt m (field w 12 4) = .ldi → decode m w = .ldi (field w 9 3) (field w 0 9)) ∧
  (∀ (dr : RegIdx) (off : BitVec 9) (s : State), ∃ t, exec (.ldi dr off) s = .next t ∧
    ∃ p r, p = memRead s (BitVec.ofInt 16 ((s.pc.toNat : Int) + off.toInt)) ∧ r = memRead p.2 p.1 ∧
      t.reg dr = r.1 ∧ FlagsOf t.cond r.1 ∧ OnlyResult dr r.2 t)

/-- 42_load_store.md R102: LDR reads BaseR + offset6 through `MemRead`; the base is read before DR is written. -/
def Obligations.LdrLoadsBaseOffset : Prop :=
  (∀ (m : OpcodeMap) (w : Word), opcodeAt m (field w 12 4) = .ldr →
    decode m w = .ldr (field w 9 3) (field w 6 3) (field w 0 6)) ∧
  (∀ (dr baseR : RegIdx) (off : BitVec 6) (s : State), ∃ t, exec (.ldr dr baseR off) s = .next t ∧
    ∃ r, r = memRead s (BitVec.ofInt 16 (((s.reg baseR).toNat : Int) + off.toInt)) ∧
      t.reg dr = r.1 ∧ FlagsOf t.cond r.1 ∧ OnlyResult dr r.2 t)

/-- 42_load_store.md R103: LEA loads the address itself, reads no memory and polls nothing. -/
def Obligations.LeaLoadsAddress : Prop :=
  (∀ (m : OpcodeMap) (w : Word), opcodeAt m (field w 12 4) = .lea → decode m w = .lea (field w 9 3) (field w 0 9)) ∧
  (∀ (dr : RegIdx) (off : BitVec 9) (s : State), ∃ t, exec (.lea dr off) s = .next t ∧
    t.reg dr = BitVec.ofInt 16 ((s.pc.toNat : Int) + off.toInt) ∧ FlagsOf t.cond (t.reg dr) ∧ OnlyResult dr s t)

/-- 42_load_store.md R104: ST stores SR at PC + PCoffset9 and changes nothing else; memory stays canonical. -/
def Obligations.StStoresPcRelative : Prop :=
  (∀ (m : OpcodeMap) (w : Word), opcodeAt m (field w 12 4) = .st → decode m w = .st (field w 9 3) (field w 0 9)) ∧
  (∀ (sr : RegIdx) (off : BitVec 9) (s : State), s.mem.wf = true → ∃ t, exec (.st sr off) s = .next t ∧
    OnlyStored (BitVec.ofInt 16 ((s.pc.toNat : Int) + off.toInt)) (s.reg sr) s t ∧ t.mem.wf = true)

/-- 42_load_store.md R105: STI reads the pointer at PC + PCoffset9 through `MemRead` and stores SR at the pointer. -/
def Obligations.StiStoresThroughPointer : Prop :=
  (∀ (m : OpcodeMap) (w : Word), opcodeAt m (field w 12 4) = .sti → decode m w = .sti (field w 9 3) (field w 0 9)) ∧
  (∀ (sr : RegIdx) (off : BitVec 9) (s : State), s.mem.wf = true → ∃ t, exec (.sti sr off) s = .next t ∧
    ∃ p, p = memRead s (BitVec.ofInt 16 ((s.pc.toNat : Int) + off.toInt)) ∧
      OnlyStored p.1 (s.reg sr) p.2 t ∧ t.mem.wf = true)

/-- 42_load_store.md R106: STR stores SR at BaseR + offset6. -/
def Obligations.StrStoresBaseOffset : Prop :=
  (∀ (m : OpcodeMap) (w : Word), opcodeAt m (field w 12 4) = .str →
    decode m w = .str (field w 9 3) (field w 6 3) (field w 0 6)) ∧
  (∀ (sr baseR : RegIdx) (off : BitVec 6) (s : State), s.mem.wf = true → ∃ t, exec (.str sr baseR off) s = .next t ∧
    OnlyStored (BitVec.ofInt 16 (((s.reg baseR).toNat : Int) + off.toInt)) (s.reg sr) s t ∧ t.mem.wf = true)

/-! ## Memory and the keyboard words -/

/-- 20_memory.md R42: `MemWrite` stores at every address, the two device addresses included, with no other effect; ST, STI, STR, the host's
write and the loader use it. -/
def Obligations.MemWriteStoresEverywhere : Prop :=
  (∀ (s : State) (a v : Word), s.mem.wf = true → OnlyStored a v s (memWrite s a v) ∧ (memWrite s a v).mem.wf = true) ∧
  (∀ (r : RegIdx) (off : BitVec 9) (s : State), exec (.st r off) s = .next (memWrite s (pcRelative s off) (s.reg r))) ∧
  (∀ (r : RegIdx) (off : BitVec 9) (s : State),
    exec (.sti r off) s = .next (memWrite (indirect s off).2 (indirect s off).1 (s.reg r))) ∧
  (∀ (r b : RegIdx) (off : BitVec 6) (s : State), exec (.str r b off) s = .next (memWrite s (baseOffset s b off) (s.reg r))) ∧
  (∀ (s : State) (a v : Word), hostMayUseMemory s = true → hostMove (.write a v) s = .next (memWrite s a v)) ∧
  (∀ (s : State) (a w : Word) (rest : List Word),
    storeImage a (w :: rest) s = storeImage (a + 1#16) rest (memWrite s a w) ∧ storeImage a [] s = s)

/-- 20_memory.md R41: `MemRead` polls at `KBSR_ADDR` and nowhere else, and returns the stored word. -/
def Obligations.MemReadInterceptsStatusOnly : Prop :=
  ∀ (s : State) (a : Word),
    (a ≠ s.cfg.kbsrAddr → memRead s a = (s.word a, s)) ∧
    (a = s.cfg.kbsrAddr → (memRead s a).2 = kbsrPoll s ∧ (memRead s a).1 = (kbsrPoll s).word a)

/-- 20_memory.md R43: a read of `KBSR_ADDR` takes a pending byte from the stream and latches it, else clears the status word; it returns
exactly 0x8000 or 0x0000 whatever was stored there. Whether the byte is pending is the host's free answer (D11; entry 12), the latch is
zero-extended (D12; entry 30). -/
def Obligations.StatusReadPollsKeyboard : Prop :=
  ∀ s : State, s.mem.wf = true → s.cfg.kbsrAddr ≠ s.cfg.kbdrAddr → ∃ v t, memRead s s.cfg.kbsrAddr = (v, t) ∧
    (match s.input, Config.keyPending s.draws with
      | b :: rest, true =>
        v = 0x8000#16 ∧ t.word s.cfg.kbsrAddr = 0x8000#16 ∧ (t.word s.cfg.kbdrAddr).toNat = b.toNat ∧ t.input = rest
      | _, _ =>
        v = 0x0000#16 ∧ t.word s.cfg.kbsrAddr = 0x0000#16 ∧ t.word s.cfg.kbdrAddr = s.word s.cfg.kbdrAddr ∧
        t.input = s.input) ∧
    (∀ x, x ≠ s.cfg.kbsrAddr → x ≠ s.cfg.kbdrAddr → t.word x = s.word x) ∧
    SameRegs s t ∧ t.cond = s.cond ∧ t.pc = s.pc ∧ SameControl s t ∧ t.output = s.output

/-- 20_memory.md R44: a read of `KBDR_ADDR` performs no poll, takes no input and changes nothing, so it repeats; it returns the word last
stored or latched there, and a poll that finds nothing leaves it. -/
def Obligations.DataReadReturnsLastLatched : Prop :=
  ∀ s : State, s.mem.wf = true → s.cfg.kbsrAddr ≠ s.cfg.kbdrAddr →
    memRead s s.cfg.kbdrAddr = (s.word s.cfg.kbdrAddr, s) ∧
    (∀ v, (memRead (memWrite s s.cfg.kbdrAddr v) s.cfg.kbdrAddr).1 = v) ∧
    (memRead (memRead s s.cfg.kbsrAddr).2 s.cfg.kbdrAddr).1 = (match s.input, Config.keyPending s.draws with
      | b :: _, true => zext b
      | _, _ => s.word s.cfg.kbdrAddr) ∧
    (∀ c input, (State.launch c input).word c.kbdrAddr = 0x0000#16)

/-- 20_memory.md R56: a store is seen by a later fetch of that word, by the very next fetch too. At `KBSR_ADDR` a fetch reads the polled
word instead (D26). -/
def Obligations.StoreSeenByNextFetch : Prop :=
  (∀ (s : State) (a v : Word), s.mem.wf = true → a ≠ s.cfg.kbsrAddr → (fetch ((memWrite s a v).setPc a)).instr = v) ∧
  (∀ (i : Instr) (s t : State) (sr : RegIdx), s.mem.wf = true → exec i s = .next t →
    (∃ off, i = .st sr off) ∨ (∃ off, i = .sti sr off) ∨ (∃ b off, i = .str sr b off) →
    storeAddress i s = some s.pc → s.pc ≠ s.cfg.kbsrAddr → (fetch t).instr = s.reg sr)

/-- 20_memory.md R49: only ST, STI and STR change memory, at the address they store to, but for the two keyboard words, which a polling
read may write. -/
def Obligations.MemoryChangesOnlyAtStores : Prop :=
  ∀ (i : Instr) (s t : State) (a : Word), s.mem.wf = true → exec i s = .next t → storeAddress i s ≠ some a →
    a ≠ s.cfg.kbsrAddr → a ≠ s.cfg.kbdrAddr → t.word a = s.word a

/-! ## TRAP and the services -/

/-- 43_trap.md R121: TRAP dispatches by its vector, instr[7:0]: 0x20 to 0x25 are the six services, any other vector is none. That a service is
a constructor of its own, which the decoder answers for its vector, is the model's choice (entry 26). -/
def Obligations.TrapDispatchesByVector : Prop :=
  (∀ (m : OpcodeMap) (w : Word), opcodeAt m (field w 12 4) = .trap →
    ((field w 0 8).toNat = 0x20 → decode m w = .getc) ∧ ((field w 0 8).toNat = 0x21 → decode m w = .out) ∧
    ((field w 0 8).toNat = 0x22 → decode m w = .puts) ∧ ((field w 0 8).toNat = 0x23 → decode m w = .inp) ∧
    ((field w 0 8).toNat = 0x24 → decode m w = .putsp) ∧ ((field w 0 8).toNat = 0x25 → decode m w = .halt) ∧
    ((field w 0 8).toNat < 0x20 ∨ 0x25 < (field w 0 8).toNat → decode m w = .trap (field w 0 8))) ∧
  (∀ s : State, exec (.trap 0x20#8) s = exec .getc s ∧ exec (.trap 0x21#8) s = exec .out s ∧
    exec (.trap 0x22#8) s = exec .puts s ∧ exec (.trap 0x23#8) s = exec .inp s ∧ exec (.trap 0x24#8) s = exec .putsp s ∧
    exec (.trap 0x25#8) s = exec .halt s) ∧
  (∀ s : State, ∃ t, exec (.trap 0x21#8) s = .next t ∧ OnlyLinkAndOutput [lowByte (s.reg 0#3)] s t)

/-- 43_trap.md R128: every other vector takes the fatal path, after the link write of R7. -/
def Obligations.UnknownVectorIsFatal : Prop :=
  (∀ (m : OpcodeMap) (w : Word), opcodeAt m (field w 12 4) = .trap →
    (field w 0 8).toNat < 0x20 ∨ 0x25 < (field w 0 8).toNat → decode m w = .trap (field w 0 8)) ∧
  (∀ (v : BitVec 8) (s : State), v.toNat < 0x20 ∨ 0x25 < v.toNat → ∃ t, exec (.trap v) s = .next t ∧
    FatalFrom .unknownTrapVector s t ∧ t.reg 7#3 = s.pc ∧ SameRegsBut 7#3 s t)

/-- 43_trap.md R123: OUT emits R0's low byte. That the decoder answers a constructor OUT for vector 0x21 is the model's choice (entry 26). -/
def Obligations.OutEmitsLowByte : Prop :=
  (∀ (m : OpcodeMap) (w : Word), opcodeAt m (field w 12 4) = .trap → field w 0 8 = 0x21#8 → decode m w = .out) ∧
  (∀ s : State, ∃ t b, exec .out s = .next t ∧ b.toNat = (s.reg 0#3).toNat % 256 ∧ OnlyLinkAndOutput [b] s t)

/-- 43_trap.md R122: GETC links PC in R7 and waits; when a byte arrives it goes to R0 zero-extended, with no echo, and the core goes on after
the TRAP. COND follows R0 only if `TRAP_INPUT_SETS_COND` (D9; entry 9). -/
def Obligations.GetcWaitsThenDelivers : Prop :=
  (∀ s : State, ∃ t, exec .getc s = .next t ∧ t.phase = .waitIn .getc ∧ t.reg 7#3 = s.pc ∧ SameRegsBut 7#3 s t ∧
    t.cond = s.cond ∧ t.pc = s.pc ∧ SameMemory s t ∧ t.cfg = s.cfg ∧ t.running = s.running ∧ t.stopCause = s.stopCause ∧
    t.instr = s.instr ∧ SameStreams s t) ∧
  (∀ (s : State) (b : Byte) (rest : List Byte), s.running = true → s.phase = .waitIn .getc → s.input = b :: rest →
    ∃ t, step s = .next t ∧ (t.reg 0#3).toNat = b.toNat ∧ SameRegsBut 0#3 s t ∧ t.input = rest ∧ t.output = s.output ∧
    t.phase = .idle ∧ t.pc = s.pc ∧ SameMemory s t ∧ t.cfg = s.cfg ∧ t.running = true ∧ t.stopCause = s.stopCause ∧
    t.instr = s.instr ∧ t.draws = s.draws ∧
    (s.cfg.trapInputSetsCond = false → t.cond = s.cond) ∧ (s.cfg.trapInputSetsCond = true → FlagsOf t.cond (t.reg 0#3)))

/-- 43_trap.md R125: IN links PC in R7, emits the prompt and waits; when a byte arrives it is echoed and goes to R0 as for GETC (D9, D16;
entries 9 and 10). -/
def Obligations.InPromptsEchoesAndDelivers : Prop :=
  (∀ s : State, ∃ t, exec .inp s = .next t ∧ t.phase = .waitIn .inp ∧ t.reg 7#3 = s.pc ∧ SameRegsBut 7#3 s t ∧
    t.cond = s.cond ∧ t.pc = s.pc ∧ SameMemory s t ∧ t.cfg = s.cfg ∧ t.running = s.running ∧ t.stopCause = s.stopCause ∧
    t.instr = s.instr ∧ t.input = s.input ∧ t.output = s.output ++ s.cfg.inPrompt ∧ t.draws = s.draws) ∧
  (∀ (s : State) (b : Byte) (rest : List Byte), s.running = true → s.phase = .waitIn .inp → s.input = b :: rest →
    ∃ t, step s = .next t ∧ (t.reg 0#3).toNat = b.toNat ∧ SameRegsBut 0#3 s t ∧ t.input = rest ∧ t.output = s.output ++ [b] ∧
    t.phase = .idle ∧ t.pc = s.pc ∧ SameMemory s t ∧ t.cfg = s.cfg ∧ t.running = true ∧ t.stopCause = s.stopCause ∧
    t.instr = s.instr ∧ t.draws = s.draws ∧
    (s.cfg.trapInputSetsCond = false → t.cond = s.cond) ∧ (s.cfg.trapInputSetsCond = true → FlagsOf t.cond (t.reg 0#3)))

/-- 43_trap.md R124: PUTS emits the low byte of each word of a string whose zero word comes before any device word (D14; entry 23). -/
def Obligations.PutsEmitsLowBytes : Prop :=
  ∀ (s : State) (ws : List Word), StringAt s (s.reg 0#3) ws → ∃ t, exec .puts s = .next t ∧
    OnlyLinkAndOutput (ws.map (fun w => BitVec.ofNat 8 (w.toNat % 256))) s t

/-- 43_trap.md R126: PUTSP emits the low byte of each word and then its high byte unless that is zero (D14, D15; entries 23 and 24). -/
def Obligations.PutspEmitsPackedBytes : Prop :=
  ∀ (s : State) (ws : List Word), StringAt s (s.reg 0#3) ws → ∃ t, exec .putsp s = .next t ∧
    OnlyLinkAndOutput (ws.flatMap (fun w => BitVec.ofNat 8 (w.toNat % 256) ::
      (if w.toNat / 256 = 0 then [] else [BitVec.ofNat 8 (w.toNat / 256)]))) s t

/-- 20_memory.md R48: a string that reaches a device word before its zero word is refused (D14; entry 23). -/
def Obligations.StringAtDeviceRefused : Prop :=
  ∀ (s : State) (ws : List Word), StringBlocked s (s.reg 0#3) ws →
    exec .puts s = .refused .stringReachesDevice ∧ exec .putsp s = .refused .stringReachesDevice

/-- 43_trap.md R124: the machine's walk always ends, within 65,536 words: it finds the words that stand before a zero word, or it finds none
because non-zero words lead to a device word, and never both; PUTS and PUTSP answer a next state in the first case and are refused in the
second (D14; entry 23). -/
def Obligations.StringWalkEnds : Prop :=
  (∀ (s : State) (a : Word), ∃ ws : List Word, ws.length < 65536 ∧
    ((stringWords s a = some ws ∧ StringAt s a ws ∧ ∀ us, ¬ StringBlocked s a us) ∨
      (stringWords s a = none ∧ StringBlocked s a ws ∧ ∀ us, ¬ StringAt s a us))) ∧
  (∀ s : State, ∃ ws : List Word, ws.length < 65536 ∧
    ((StringAt s (s.reg 0#3) ws ∧ (∃ t, exec .puts s = .next t) ∧ ∃ t, exec .putsp s = .next t) ∨
      (StringBlocked s (s.reg 0#3) ws ∧ exec .puts s = .refused .stringReachesDevice ∧
        exec .putsp s = .refused .stringReachesDevice)))

/-- 60_exceptions.md R156: the refusal of such a string is the only one; every other instruction answers a next state. -/
def Obligations.OnlyStringServicesRefuse : Prop :=
  (∀ (i : Instr) (s : State), i ≠ .puts → i ≠ .putsp → i ≠ .trap 0x22#8 → i ≠ .trap 0x24#8 → ∃ t, exec i s = .next t) ∧
  (∀ (i : Instr) (s : State) (r : Refusal), exec i s = .refused r →
    r = .stringReachesDevice ∧ ∃ ws, StringBlocked s (s.reg 0#3) ws)

/-- 43_trap.md R127: HALT emits the banner, clears `running` and records Halt; PC afterwards is a free value, of which nothing is said (D17,
D18; entries 11 and 13). -/
def Obligations.HaltStopsTheMachine : Prop :=
  ∀ s : State, ∃ t, exec .halt s = .next t ∧ t.running = false ∧ t.stopCause = .halt ∧ t.reg 7#3 = s.pc ∧ SameRegsBut 7#3 s t ∧
    t.output = s.output ++ s.cfg.haltBanner ∧ t.input = s.input ∧ t.cond = s.cond ∧ SameMemory s t ∧ t.cfg = s.cfg ∧
    t.phase = s.phase ∧ t.instr = s.instr

/-! ## The fatal path -/

/-- 44_unimplemented.md R140 and R141: RTI and the reserved opcode take the fatal path and change nothing else. -/
def Obligations.UnimplementedOpcodesAreFatal : Prop :=
  (∀ (m : OpcodeMap) (w : Word), (opcodeAt m (field w 12 4) = .rti → decode m w = .rti) ∧
    (opcodeAt m (field w 12 4) = .reserved → decode m w = .reserved)) ∧
  (∀ s : State, ∃ t, exec .rti s = .next t ∧ FatalFrom .unimplementedOpcode s t ∧ SameRegs s t) ∧
  (∀ s : State, ∃ t, exec .reserved s = .next t ∧ FatalFrom .unimplementedOpcode s t ∧ SameRegs s t)

/-- 60_exceptions.md R150, R152 through a whole step: a fetched RTI or reserved word is recorded with its own address, and no register, flag or
plain word of memory changes. -/
def Obligations.FatalStepRecordsWordAndAddress : Prop :=
  ∀ s : State, s.running = true → s.phase = .idle → s.mem.wf = true → s.pc ≠ s.cfg.kbsrAddr →
    opcodeAt s.cfg.opcodeMap (field (s.word s.pc) 12 4) = .rti ∨ opcodeAt s.cfg.opcodeMap (field (s.word s.pc) 12 4) = .reserved →
    ∃ t, step s = .next t ∧ t.running = false ∧ t.stopCause = .fatal .unimplementedOpcode (s.word s.pc) s.pc ∧
      t.pc = s.pc + 1#16 ∧ SameRegs s t ∧ t.cond = s.cond ∧ t.mem = s.mem ∧ SameStreams s t

/-- 10_state.md R29: a Fatal is sticky: whatever the core and the host do afterwards, in any order, the stop cause and `running` stay, no
register, PC or COND changes, the run is never a successful end (D19), and no endless run from it diverges (60_exceptions.md R163; entry 37). -/
def Obligations.FatalIsSticky : Prop :=
  ∀ (es : List Event) (s t : State) (k : FatalKind) (w a : Word), s.running = false → s.stopCause = .fatal k w a →
    runEvents es s = .next t →
    t.running = false ∧ t.stopCause = .fatal k w a ∧ t.regs = s.regs ∧ t.pc = s.pc ∧ t.cond = s.cond ∧ t.output = s.output ∧
      ¬ t.Successful ∧ ∀ e, ¬ Diverging t e

/-! ## The step and the whole machine -/

/-- 10_state.md R35: `step()` does nothing while stopped; continues the waiting service; else reads the word at PC, increments PC, and runs
the instruction that the word decodes to. -/
def Obligations.StepRunsDecodedInstruction : Prop :=
  (∀ s : State, s.running = false → step s = .next s) ∧
  (∀ (s : State) (k : InputService), s.running = true → s.phase = .waitIn k → step s = resumeInput k s) ∧
  (∀ (s : State) (w : Word) (u : State), s.running = true → s.phase = .idle → memRead s s.pc = (w, u) →
    step s = exec (decode s.cfg.opcodeMap w) ((u.setInstr w).setPc (BitVec.ofNat 16 ((s.pc.toNat + 1) % 65536))))

/-- 10_state.md R22: the fetch increments PC modulo 2^16, and after it only the taken BR, JMP, RET, JSR, JSRR and HALT write PC; a resumed
service does not. -/
def Obligations.PcWrittenOnlyByTransfers : Prop :=
  (∀ s : State, (fetch s).pc.toNat = (s.pc.toNat + 1) % 65536) ∧
  (∀ (i : Instr) (s t : State), exec i s = .next t → writesPc i = false → t.pc = s.pc) ∧
  (∀ (n z p : Bool) (off : BitVec 9) (s t : State), exec (.br n z p off) s = .next t →
    ¬ ((n = true ∧ s.cond = .n) ∨ (z = true ∧ s.cond = .z) ∨ (p = true ∧ s.cond = .p)) → t.pc = s.pc) ∧
  (∀ (k : InputService) (s t : State), resumeInput k s = .next t → t.pc = s.pc)

/-- 10_state.md R21: an instruction writes no general register but its own destination, or R7 for the calls and traps; a resumed GETC or IN
writes R0 only. -/
def Obligations.OnlyListedRegistersWritten : Prop :=
  (∀ (i : Instr) (s t : State) (r : RegIdx), exec i s = .next t → r ∉ regsWritten i → t.reg r = s.reg r) ∧
  (∀ (k : InputService) (s t : State) (r : RegIdx), resumeInput k s = .next t → r ≠ 0#3 → t.reg r = s.reg r)

/-- 10_state.md R25: COND follows the destination register of exactly ADD, AND, NOT, LD, LDI, LDR and LEA, and no other instruction changes
it. -/
def Obligations.CondSetOnlyByListed : Prop :=
  ∀ (i : Instr) (s t : State), exec i s = .next t →
    (∀ dr, flagSetter i = some dr → FlagsOf t.cond (t.reg dr)) ∧ (flagSetter i = none → t.cond = s.cond)

/-- 10_state.md R26: only BR reads COND: any other instruction does the same whatever COND holds, and so does every move of the host; BR moves
it nowhere. -/
def Obligations.CondReadOnlyByBranch : Prop :=
  (∀ (n z p : Bool) (off : BitVec 9) (s t : State), exec (.br n z p off) s = .next t → t.regs = s.regs ∧ t.cond = s.cond) ∧
  (∀ (i : Instr) (s : State) (c : Cond), (∀ n z p off, i ≠ .br n z p off) →
    mapNext (fun t => t.setCond .z) (exec i (s.setCond c)) = mapNext (fun t => t.setCond .z) (exec i s)) ∧
  (∀ (k : InputService) (s : State) (c : Cond),
    mapNext (fun t => t.setCond .z) (resumeInput k (s.setCond c)) = mapNext (fun t => t.setCond .z) (resumeInput k s)) ∧
  (∀ (m : HostMove) (s : State) (c : Cond),
    mapNext (fun t => t.setCond .z) (hostMove m (s.setCond c)) = mapNext (fun t => t.setCond .z) (hostMove m s)) ∧
  (∀ (a : Word) (s : State) (c : Cond), hostReadValue a (s.setCond c) = hostReadValue a s)

/-- 10_state.md R27: HALT, the fatal path and the stop request clear `running`, a step does so by nothing but the first two, a move of the host
by nothing but the third; the host sets it; and a step of a stopped core changes nothing. -/
def Obligations.RunningClearedOnlyByHaltFatalStop : Prop :=
  (∀ s : State, ∃ t, exec .halt s = .next t ∧ t.running = false) ∧
  (∀ (k : FatalKind) (s : State), (raiseFatal k s).running = false) ∧
  (∀ s : State, s.stopCause = .none → ∃ t, hostMove .stop s = .next t ∧ t.running = false) ∧
  (∀ s : State, (∀ k w a, s.stopCause ≠ .fatal k w a) → ∃ t, hostMove .start s = .next t ∧ t.running = true) ∧
  (∀ (s t : State), s.running = true → step s = .next t → t.running = false →
    t.stopCause = .halt ∨ ∃ k w a, t.stopCause = .fatal k w a) ∧
  (∀ (i : Instr) (s t : State), s.running = true → exec i s = .next t → t.running = false →
    (t.stopCause = .halt ∧ (i = .halt ∨ i = .trap 0x25#8)) ∨
    (t.stopCause = .fatal .unimplementedOpcode s.instr (s.pc - 1#16) ∧ (i = .rti ∨ i = .reserved)) ∨
    (t.stopCause = .fatal .unknownTrapVector s.instr (s.pc - 1#16) ∧ ∃ v, i = .trap v)) ∧
  (∀ (m : HostMove) (s t : State), s.running = true → hostMove m s = .next t → t.running = false →
    m = .stop ∧ t.stopCause = .hostStop) ∧
  (∀ s : State, s.running = false → step s = .next s)

/-- 10_state.md R30, R31: a step takes bytes from the front of the input only, at most three (the fetch's poll and LDI's two), and only appends
to the output. -/
def Obligations.StreamsKeepTheirOrder : Prop :=
  ∀ s t : State, step s = .next t → (∃ taken : List Byte, s.input = taken ++ t.input ∧ taken.length ≤ 3) ∧
    (∃ more : List Byte, t.output = s.output ++ more)

/-- 00_scope.md R6: no step and no move of the host changes a named parameter (entry 2). -/
def Obligations.ParametersNeverChange : Prop :=
  ∀ (e : Event) (s t : State), transition e s = .next t → t.cfg = s.cfg

/-- Every step keeps the invariant: canonical memory, well-formed parameters, no stop cause while running, phase Idle while stopped, and the
link of a waiting service (10_state.md R29, R32; 20_memory.md R40). -/
def Obligations.StepKeepsInvariant : Prop := ∀ s t : State, s.Inv → step s = .next t → t.Inv

/-- Every run keeps the invariant, whatever the order of steps and host moves, from any state that meets it (60_exceptions.md R154). -/
def Obligations.RunsKeepInvariant : Prop := ∀ (es : List Event) (s t : State), s.Inv → runEvents es s = .next t → t.Inv

/-- Every launch with well-formed parameters meets the invariant, the reset state among them. -/
def Obligations.LaunchMeetsInvariant : Prop :=
  (∀ (c : Config) (input : List Byte), c.wf = true → (State.launch c input).Inv) ∧ State.reset.Inv

/-! ## Reset and the host -/

/-- 70_reset_and_hazards.md R170: every memory word is zero at reset, the two keyboard words included. -/
def Obligations.MemoryZeroAtReset : Prop :=
  ∀ (c : Config) (input : List Byte) (a : Word), (State.launch c input).word a = 0x0000#16

/-- 70_reset_and_hazards.md R171 to R176: a fresh core's other state, for every choice of the launch parameters (D3 to D6; entries 5 to 7, 20). -/
def Obligations.LaunchState : Prop :=
  ∀ (c : Config) (input : List Byte), ∃ s, s = State.launch c input ∧ s.cfg = c ∧
    (∀ r : RegIdx, s.reg r = c.gprInit[r.toNat]'(r.isLt)) ∧ s.pc = c.pcStart ∧ s.cond = c.condReset ∧ s.running = false ∧
    s.stopCause = .none ∧ s.phase = .idle ∧ s.input = input ∧ s.output = [] ∧ s.status = .notStarted

/-- 10_state.md R32: the stop request, in Idle and in WaitIn, stops the core and abandons a waiting service; registers, PC, COND, memory and the
streams stay (D20). A Fatal is not overwritten (R29; entry 22). -/
def Obligations.StopRequestStopsTheCore : Prop :=
  (∀ (s : State) (k : FatalKind) (w a : Word), s.stopCause = .fatal k w a → hostMove .stop s = .next s) ∧
  (∀ s : State, (∀ k w a, s.stopCause ≠ .fatal k w a) → ∃ t, hostMove .stop s = .next t ∧ t.running = false ∧
    t.stopCause = .hostStop ∧ t.phase = .idle ∧ t.regs = s.regs ∧ t.pc = s.pc ∧ t.cond = s.cond ∧ t.mem = s.mem ∧
    t.cfg = s.cfg ∧ t.instr = s.instr ∧ SameStreams s t)

/-- 10_state.md R33: the host's other moves: `running` <- true (not after a Fatal), memory only while stopped and Idle, and no move reads or
writes a register, PC or COND (D22, D27, D28; entry 21). -/
def Obligations.HostMovesWithinTheirRights : Prop :=
  (∀ s : State, (∀ k w a, s.stopCause ≠ .fatal k w a) →
    ∃ t, hostMove .start s = .next t ∧ t.running = true ∧ t.stopCause = .none ∧ t.pc = s.pc ∧ t.mem = s.mem ∧ t.phase = s.phase) ∧
  (∀ (s : State) (k : FatalKind) (w a : Word), s.stopCause = .fatal k w a → hostMove .start s = .refused .hostCannotResume) ∧
  (∀ (s : State) (a v : Word), s.running = true ∨ s.phase ≠ .idle →
    hostMove (.read a) s = .refused .hostMemoryInUse ∧ hostMove (.write a v) s = .refused .hostMemoryInUse) ∧
  (∀ (s : State) (a v : Word), s.mem.wf = true → s.running = false → s.phase = .idle →
    ∃ t, hostMove (.write a v) s = .next t ∧ OnlyStored a v s t ∧ (a ≠ s.cfg.kbsrAddr → hostReadValue a t = v)) ∧
  (∀ (m : HostMove) (s t : State), hostMove m s = .next t → t.regs = s.regs ∧ t.pc = s.pc ∧ t.cond = s.cond)

/-- 20_memory.md R52: the loader's word k stands at origin + k afterwards, and every other word is as before; an image that does not fit below
0x10000 is refused (D25; entry 31). -/
def Obligations.LoaderPlacesImage : Prop :=
  (∀ (origin : Word) (image : List Word) (s : State), s.mem.wf = true → s.running = false → s.phase = .idle →
    origin.toNat + image.length ≤ 65536 → ∃ t, hostLoad origin image s = .next t ∧ t.mem.wf = true ∧
      (∀ (k : Nat) (h : k < image.length), t.word (BitVec.ofNat 16 (origin.toNat + k)) = image[k]) ∧
      (∀ a : Word, a.toNat < origin.toNat ∨ origin.toNat + image.length ≤ a.toNat → t.word a = s.word a)) ∧
  (∀ (origin : Word) (image : List Word) (s : State), s.running = false → s.phase = .idle →
    65536 < origin.toNat + image.length → hostLoad origin image s = .refused .imageTooLong)

/-- 43_trap.md R122: with no byte supplied a waiting core holds (D10; entries 16 and 17): the step changes nothing, and steps for ever are no
diverging run (60_exceptions.md R163; entry 37); a supplied byte lets the next step finish the service, and a stop request ends the wait. A
taken BR with PCoffset9 = -1, which branches to itself (41_control.md R90), makes steps for ever a diverging run (entry 37). -/
def Obligations.WaitingHoldsBranchLoopDiverges : Prop :=
  (∀ (s : State) (k : InputService), s.running = true → s.phase = .waitIn k → s.input = [] → s.stopCause = .none →
    step s = .next s ∧ s.status = .held ∧ ¬ Diverging s (fun _ => .step) ∧
    (∀ b : Byte, ∃ t u, hostMove (.supply b) s = .next t ∧ step t = .next u ∧ u.phase = .idle ∧ u.pc = s.pc ∧
      (u.reg 0#3).toNat = b.toNat) ∧
    (∃ t, hostMove .stop s = .next t ∧ t.status = .stoppedByHost ∧ t.reg 0#3 = s.reg 0#3 ∧ t.cond = s.cond ∧ t.pc = s.pc)) ∧
  (∀ (n z p : Bool) (s : State), s.running = true → s.phase = .idle → s.pc ≠ s.cfg.kbsrAddr →
    decode s.cfg.opcodeMap (s.word s.pc) = .br n z p 0x1FF#9 →
    (n = true ∧ s.cond = .n) ∨ (z = true ∧ s.cond = .z) ∨ (p = true ∧ s.cond = .p) → Diverging s (fun _ => .step))
end

