-- ==== Sys2Proof/Laws/Decode.lean ====
section
/-! SUPPORT. Opcode maps, and the fields of a word put together from an opcode and a body. -/

namespace Sys2Proof

/-- Every name has a code under a well-formed map. -/
theorem opcodeAt_codeOf {m : OpcodeMap} (h : m.wf = true) (op : Opcode) : opcodeAt m (codeOf m op) = op := by
  have hin : op ∈ m.toList := by
    have h2 := (Bool.and_eq_true_iff.mp h).2
    rw [List.all_eq_true] at h2
    have := h2 op (by cases op <;> decide)
    simpa using this
  have hlt : m.toList.idxOf op < 16 := by
    have := List.idxOf_lt_length_of_mem hin
    simpa using this
  have hget : m.toList[m.toList.idxOf op]'(by simpa using hlt) = op := List.getElem_idxOf _
  unfold opcodeAt codeOf
  have hm : (BitVec.ofNat 4 (m.toList.idxOf op)).toNat = m.toList.idxOf op := by simp [Nat.mod_eq_of_lt hlt]
  simp only [hm]
  rw [← Vector.getElem_toList]
  exact hget

/-- Every code is the code of the name it selects under a well-formed map. -/
theorem codeOf_opcodeAt {m : OpcodeMap} (h : m.wf = true) (c : BitVec 4) : codeOf m (opcodeAt m c) = c := by
  have hn : m.toList.Nodup := by
    have h1 := (Bool.and_eq_true_iff.mp h).1
    simpa using h1
  have hc : c.toNat < m.toList.length := by
    have := c.isLt
    simpa using this
  have hget : opcodeAt m c = m.toList[c.toNat]'hc := by simp [opcodeAt]
  unfold codeOf
  rw [hget, hn.idxOf_getElem c.toNat hc]
  simp

/-- The bits of a concatenation: the low part's, then the high part's. -/
@[simp] theorem getLsbD_join {n k : Nat} (w : Nat) (a : BitVec n) (b : BitVec k) (i : Nat) :
    (join w a b).getLsbD i = (decide (i < w) && if i < k then b.getLsbD i else a.getLsbD (i - k)) := by
  simp [join, BitVec.getLsbD_append]

/-- A field is known by its bits. -/
theorem field_eq {w : Word} {lo len : Nat} {v : BitVec len}
    (h : ∀ i, i < len → w.getLsbD (lo + i) = v.getLsbD i) : field w lo len = v := by
  apply BitVec.eq_of_getLsbD_eq
  intro i hi
  simp [field, hi, h i hi]

/-- The bits of a field. -/
theorem getLsbD_field (w : Word) (lo len i : Nat) : (field w lo len).getLsbD i = (decide (i < len) && w.getLsbD (lo + i)) := by
  simp [field]

/-- The opcode field of an assembled word. -/
theorem field_join_high (c : BitVec 4) (b : BitVec 12) : field (join 16 c b) 12 4 = c := by
  apply field_eq
  intro i hi
  rw [getLsbD_join]
  interval_cases i <;> simp

/-- The body of an assembled word. -/
theorem field_join_body (c : BitVec 4) (b : BitVec 12) : field (join 16 c b) 0 12 = b := by
  apply field_eq
  intro i hi
  rw [getLsbD_join]
  interval_cases i <;> simp

/-- An assembled word is decoded by the name its opcode stands for. -/
theorem decode_join {m : OpcodeMap} (h : m.wf = true) (op : Opcode) (b : BitVec 12) :
    decode m (join 16 (codeOf m op) b) = decodeAs op (join 16 (codeOf m op) b) := by
  unfold decode
  rw [field_join_high, opcodeAt_codeOf h]

/-- The decoder's JMP and TRAP answer the named instructions for the words that have them. -/
theorem decodeJmp_of_ne {r : RegIdx} (h : r ≠ 7#3) : decodeJmp r = .jmp r := by simp [decodeJmp, h]

theorem decodeTrap_of_unnamed {v : BitVec 8} (h : Instr.namedVector v = false) : decodeTrap v = .trap v := by
  unfold decodeTrap
  have e : ∀ k : BitVec 8, Instr.namedVector k = true → v ≠ k := by
    rintro k hk rfl
    simp [hk] at h
  rw [if_neg (e _ (by decide)), if_neg (e _ (by decide)), if_neg (e _ (by decide)), if_neg (e _ (by decide)),
    if_neg (e _ (by decide)), if_neg (e _ (by decide))]

end Sys2Proof
end

