-- ==== Sys2Proof/Laws/State.lean ====
section
/-! SUPPORT. One lemma per field per update of State, and per derived read (`reg`, `word`): no later proof unfolds an update. -/

namespace Sys2Proof.Machine

variable (s : State)

@[simp] theorem State.cfg_setReg (r : RegIdx) (v : Word) : (s.setReg r v).cfg = s.cfg := rfl
@[simp] theorem State.regs_setReg (r : RegIdx) (v : Word) : (s.setReg r v).regs = s.regs.set r.toNat v r.isLt := rfl
@[simp] theorem State.pc_setReg (r : RegIdx) (v : Word) : (s.setReg r v).pc = s.pc := rfl
@[simp] theorem State.cond_setReg (r : RegIdx) (v : Word) : (s.setReg r v).cond = s.cond := rfl
@[simp] theorem State.mem_setReg (r : RegIdx) (v : Word) : (s.setReg r v).mem = s.mem := rfl
@[simp] theorem State.running_setReg (r : RegIdx) (v : Word) : (s.setReg r v).running = s.running := rfl
@[simp] theorem State.stopCause_setReg (r : RegIdx) (v : Word) : (s.setReg r v).stopCause = s.stopCause := rfl
@[simp] theorem State.phase_setReg (r : RegIdx) (v : Word) : (s.setReg r v).phase = s.phase := rfl
@[simp] theorem State.input_setReg (r : RegIdx) (v : Word) : (s.setReg r v).input = s.input := rfl
@[simp] theorem State.output_setReg (r : RegIdx) (v : Word) : (s.setReg r v).output = s.output := rfl
@[simp] theorem State.instr_setReg (r : RegIdx) (v : Word) : (s.setReg r v).instr = s.instr := rfl
@[simp] theorem State.draws_setReg (r : RegIdx) (v : Word) : (s.setReg r v).draws = s.draws := rfl
@[simp] theorem State.word_setReg (r : RegIdx) (v : Word) (x : Word) : (s.setReg r v).word x = s.word x := rfl

@[simp] theorem State.cfg_setPc (v : Word) : (s.setPc v).cfg = s.cfg := rfl
@[simp] theorem State.regs_setPc (v : Word) : (s.setPc v).regs = s.regs := rfl
@[simp] theorem State.pc_setPc (v : Word) : (s.setPc v).pc = v := rfl
@[simp] theorem State.cond_setPc (v : Word) : (s.setPc v).cond = s.cond := rfl
@[simp] theorem State.mem_setPc (v : Word) : (s.setPc v).mem = s.mem := rfl
@[simp] theorem State.running_setPc (v : Word) : (s.setPc v).running = s.running := rfl
@[simp] theorem State.stopCause_setPc (v : Word) : (s.setPc v).stopCause = s.stopCause := rfl
@[simp] theorem State.phase_setPc (v : Word) : (s.setPc v).phase = s.phase := rfl
@[simp] theorem State.input_setPc (v : Word) : (s.setPc v).input = s.input := rfl
@[simp] theorem State.output_setPc (v : Word) : (s.setPc v).output = s.output := rfl
@[simp] theorem State.instr_setPc (v : Word) : (s.setPc v).instr = s.instr := rfl
@[simp] theorem State.draws_setPc (v : Word) : (s.setPc v).draws = s.draws := rfl
@[simp] theorem State.reg_setPc (v : Word) (i : RegIdx) : (s.setPc v).reg i = s.reg i := rfl
@[simp] theorem State.word_setPc (v : Word) (x : Word) : (s.setPc v).word x = s.word x := rfl

@[simp] theorem State.cfg_setCond (c : Cond) : (s.setCond c).cfg = s.cfg := rfl
@[simp] theorem State.regs_setCond (c : Cond) : (s.setCond c).regs = s.regs := rfl
@[simp] theorem State.pc_setCond (c : Cond) : (s.setCond c).pc = s.pc := rfl
@[simp] theorem State.cond_setCond (c : Cond) : (s.setCond c).cond = c := rfl
@[simp] theorem State.mem_setCond (c : Cond) : (s.setCond c).mem = s.mem := rfl
@[simp] theorem State.running_setCond (c : Cond) : (s.setCond c).running = s.running := rfl
@[simp] theorem State.stopCause_setCond (c : Cond) : (s.setCond c).stopCause = s.stopCause := rfl
@[simp] theorem State.phase_setCond (c : Cond) : (s.setCond c).phase = s.phase := rfl
@[simp] theorem State.input_setCond (c : Cond) : (s.setCond c).input = s.input := rfl
@[simp] theorem State.output_setCond (c : Cond) : (s.setCond c).output = s.output := rfl
@[simp] theorem State.instr_setCond (c : Cond) : (s.setCond c).instr = s.instr := rfl
@[simp] theorem State.draws_setCond (c : Cond) : (s.setCond c).draws = s.draws := rfl
@[simp] theorem State.reg_setCond (c : Cond) (i : RegIdx) : (s.setCond c).reg i = s.reg i := rfl
@[simp] theorem State.word_setCond (c : Cond) (x : Word) : (s.setCond c).word x = s.word x := rfl

@[simp] theorem State.cfg_setWord (a v : Word) : (s.setWord a v).cfg = s.cfg := rfl
@[simp] theorem State.regs_setWord (a v : Word) : (s.setWord a v).regs = s.regs := rfl
@[simp] theorem State.pc_setWord (a v : Word) : (s.setWord a v).pc = s.pc := rfl
@[simp] theorem State.cond_setWord (a v : Word) : (s.setWord a v).cond = s.cond := rfl
@[simp] theorem State.mem_setWord (a v : Word) : (s.setWord a v).mem = s.mem.store a.toNat v := rfl
@[simp] theorem State.running_setWord (a v : Word) : (s.setWord a v).running = s.running := rfl
@[simp] theorem State.stopCause_setWord (a v : Word) : (s.setWord a v).stopCause = s.stopCause := rfl
@[simp] theorem State.phase_setWord (a v : Word) : (s.setWord a v).phase = s.phase := rfl
@[simp] theorem State.input_setWord (a v : Word) : (s.setWord a v).input = s.input := rfl
@[simp] theorem State.output_setWord (a v : Word) : (s.setWord a v).output = s.output := rfl
@[simp] theorem State.instr_setWord (a v : Word) : (s.setWord a v).instr = s.instr := rfl
@[simp] theorem State.draws_setWord (a v : Word) : (s.setWord a v).draws = s.draws := rfl
@[simp] theorem State.reg_setWord (a v : Word) (i : RegIdx) : (s.setWord a v).reg i = s.reg i := rfl

@[simp] theorem State.cfg_emit (bs : List Byte) : (s.emit bs).cfg = s.cfg := rfl
@[simp] theorem State.regs_emit (bs : List Byte) : (s.emit bs).regs = s.regs := rfl
@[simp] theorem State.pc_emit (bs : List Byte) : (s.emit bs).pc = s.pc := rfl
@[simp] theorem State.cond_emit (bs : List Byte) : (s.emit bs).cond = s.cond := rfl
@[simp] theorem State.mem_emit (bs : List Byte) : (s.emit bs).mem = s.mem := rfl
@[simp] theorem State.running_emit (bs : List Byte) : (s.emit bs).running = s.running := rfl
@[simp] theorem State.stopCause_emit (bs : List Byte) : (s.emit bs).stopCause = s.stopCause := rfl
@[simp] theorem State.phase_emit (bs : List Byte) : (s.emit bs).phase = s.phase := rfl
@[simp] theorem State.input_emit (bs : List Byte) : (s.emit bs).input = s.input := rfl
@[simp] theorem State.output_emit (bs : List Byte) : (s.emit bs).output = s.output ++ bs := rfl
@[simp] theorem State.instr_emit (bs : List Byte) : (s.emit bs).instr = s.instr := rfl
@[simp] theorem State.draws_emit (bs : List Byte) : (s.emit bs).draws = s.draws := rfl
@[simp] theorem State.reg_emit (bs : List Byte) (i : RegIdx) : (s.emit bs).reg i = s.reg i := rfl
@[simp] theorem State.word_emit (bs : List Byte) (x : Word) : (s.emit bs).word x = s.word x := rfl

@[simp] theorem State.cfg_setPhase (p : Phase) : (s.setPhase p).cfg = s.cfg := rfl
@[simp] theorem State.regs_setPhase (p : Phase) : (s.setPhase p).regs = s.regs := rfl
@[simp] theorem State.pc_setPhase (p : Phase) : (s.setPhase p).pc = s.pc := rfl
@[simp] theorem State.cond_setPhase (p : Phase) : (s.setPhase p).cond = s.cond := rfl
@[simp] theorem State.mem_setPhase (p : Phase) : (s.setPhase p).mem = s.mem := rfl
@[simp] theorem State.running_setPhase (p : Phase) : (s.setPhase p).running = s.running := rfl
@[simp] theorem State.stopCause_setPhase (p : Phase) : (s.setPhase p).stopCause = s.stopCause := rfl
@[simp] theorem State.phase_setPhase (p : Phase) : (s.setPhase p).phase = p := rfl
@[simp] theorem State.input_setPhase (p : Phase) : (s.setPhase p).input = s.input := rfl
@[simp] theorem State.output_setPhase (p : Phase) : (s.setPhase p).output = s.output := rfl
@[simp] theorem State.instr_setPhase (p : Phase) : (s.setPhase p).instr = s.instr := rfl
@[simp] theorem State.draws_setPhase (p : Phase) : (s.setPhase p).draws = s.draws := rfl
@[simp] theorem State.reg_setPhase (p : Phase) (i : RegIdx) : (s.setPhase p).reg i = s.reg i := rfl
@[simp] theorem State.word_setPhase (p : Phase) (x : Word) : (s.setPhase p).word x = s.word x := rfl

@[simp] theorem State.cfg_setRun (r : Bool) (c : StopCause) : (s.setRun r c).cfg = s.cfg := rfl
@[simp] theorem State.regs_setRun (r : Bool) (c : StopCause) : (s.setRun r c).regs = s.regs := rfl
@[simp] theorem State.pc_setRun (r : Bool) (c : StopCause) : (s.setRun r c).pc = s.pc := rfl
@[simp] theorem State.cond_setRun (r : Bool) (c : StopCause) : (s.setRun r c).cond = s.cond := rfl
@[simp] theorem State.mem_setRun (r : Bool) (c : StopCause) : (s.setRun r c).mem = s.mem := rfl
@[simp] theorem State.running_setRun (r : Bool) (c : StopCause) : (s.setRun r c).running = r := rfl
@[simp] theorem State.stopCause_setRun (r : Bool) (c : StopCause) : (s.setRun r c).stopCause = c := rfl
@[simp] theorem State.phase_setRun (r : Bool) (c : StopCause) : (s.setRun r c).phase = s.phase := rfl
@[simp] theorem State.input_setRun (r : Bool) (c : StopCause) : (s.setRun r c).input = s.input := rfl
@[simp] theorem State.output_setRun (r : Bool) (c : StopCause) : (s.setRun r c).output = s.output := rfl
@[simp] theorem State.instr_setRun (r : Bool) (c : StopCause) : (s.setRun r c).instr = s.instr := rfl
@[simp] theorem State.draws_setRun (r : Bool) (c : StopCause) : (s.setRun r c).draws = s.draws := rfl
@[simp] theorem State.reg_setRun (r : Bool) (c : StopCause) (i : RegIdx) : (s.setRun r c).reg i = s.reg i := rfl
@[simp] theorem State.word_setRun (r : Bool) (c : StopCause) (x : Word) : (s.setRun r c).word x = s.word x := rfl

@[simp] theorem State.cfg_setInput (bs : List Byte) : (s.setInput bs).cfg = s.cfg := rfl
@[simp] theorem State.regs_setInput (bs : List Byte) : (s.setInput bs).regs = s.regs := rfl
@[simp] theorem State.pc_setInput (bs : List Byte) : (s.setInput bs).pc = s.pc := rfl
@[simp] theorem State.cond_setInput (bs : List Byte) : (s.setInput bs).cond = s.cond := rfl
@[simp] theorem State.mem_setInput (bs : List Byte) : (s.setInput bs).mem = s.mem := rfl
@[simp] theorem State.running_setInput (bs : List Byte) : (s.setInput bs).running = s.running := rfl
@[simp] theorem State.stopCause_setInput (bs : List Byte) : (s.setInput bs).stopCause = s.stopCause := rfl
@[simp] theorem State.phase_setInput (bs : List Byte) : (s.setInput bs).phase = s.phase := rfl
@[simp] theorem State.input_setInput (bs : List Byte) : (s.setInput bs).input = bs := rfl
@[simp] theorem State.output_setInput (bs : List Byte) : (s.setInput bs).output = s.output := rfl
@[simp] theorem State.instr_setInput (bs : List Byte) : (s.setInput bs).instr = s.instr := rfl
@[simp] theorem State.draws_setInput (bs : List Byte) : (s.setInput bs).draws = s.draws := rfl
@[simp] theorem State.reg_setInput (bs : List Byte) (i : RegIdx) : (s.setInput bs).reg i = s.reg i := rfl
@[simp] theorem State.word_setInput (bs : List Byte) (x : Word) : (s.setInput bs).word x = s.word x := rfl

@[simp] theorem State.cfg_setInstr (w : Word) : (s.setInstr w).cfg = s.cfg := rfl
@[simp] theorem State.regs_setInstr (w : Word) : (s.setInstr w).regs = s.regs := rfl
@[simp] theorem State.pc_setInstr (w : Word) : (s.setInstr w).pc = s.pc := rfl
@[simp] theorem State.cond_setInstr (w : Word) : (s.setInstr w).cond = s.cond := rfl
@[simp] theorem State.mem_setInstr (w : Word) : (s.setInstr w).mem = s.mem := rfl
@[simp] theorem State.running_setInstr (w : Word) : (s.setInstr w).running = s.running := rfl
@[simp] theorem State.stopCause_setInstr (w : Word) : (s.setInstr w).stopCause = s.stopCause := rfl
@[simp] theorem State.phase_setInstr (w : Word) : (s.setInstr w).phase = s.phase := rfl
@[simp] theorem State.input_setInstr (w : Word) : (s.setInstr w).input = s.input := rfl
@[simp] theorem State.output_setInstr (w : Word) : (s.setInstr w).output = s.output := rfl
@[simp] theorem State.instr_setInstr (w : Word) : (s.setInstr w).instr = w := rfl
@[simp] theorem State.draws_setInstr (w : Word) : (s.setInstr w).draws = s.draws := rfl
@[simp] theorem State.reg_setInstr (w : Word) (i : RegIdx) : (s.setInstr w).reg i = s.reg i := rfl
@[simp] theorem State.word_setInstr (w : Word) (x : Word) : (s.setInstr w).word x = s.word x := rfl

@[simp] theorem State.cfg_drawn : s.drawn.cfg = s.cfg := rfl
@[simp] theorem State.regs_drawn : s.drawn.regs = s.regs := rfl
@[simp] theorem State.pc_drawn : s.drawn.pc = s.pc := rfl
@[simp] theorem State.cond_drawn : s.drawn.cond = s.cond := rfl
@[simp] theorem State.mem_drawn : s.drawn.mem = s.mem := rfl
@[simp] theorem State.running_drawn : s.drawn.running = s.running := rfl
@[simp] theorem State.stopCause_drawn : s.drawn.stopCause = s.stopCause := rfl
@[simp] theorem State.phase_drawn : s.drawn.phase = s.phase := rfl
@[simp] theorem State.input_drawn : s.drawn.input = s.input := rfl
@[simp] theorem State.output_drawn : s.drawn.output = s.output := rfl
@[simp] theorem State.instr_drawn : s.drawn.instr = s.instr := rfl
@[simp] theorem State.draws_drawn : s.drawn.draws = s.draws + 1 := rfl
@[simp] theorem State.reg_drawn (i : RegIdx) : s.drawn.reg i = s.reg i := rfl
@[simp] theorem State.word_drawn (x : Word) : s.drawn.word x = s.word x := rfl

/-- Reading a register after writing one. -/
@[simp] theorem State.reg_setReg (r : RegIdx) (v : Word) (i : RegIdx) :
    (s.setReg r v).reg i = if i = r then v else s.reg i := by
  unfold State.reg State.setReg
  simp only [Vector.getElem_set]
  by_cases h : i = r
  · simp [h]
  · have : r.toNat ≠ i.toNat := fun e => h (BitVec.eq_of_toNat_eq e.symm)
    simp [h, this]

/-- Two register files that read alike are equal. -/
theorem State.regs_ext {s t : State} (h : ∀ r, s.reg r = t.reg r) : s.regs = t.regs := by
  apply Vector.ext
  intro i hi
  have := h (BitVec.ofNat 3 i)
  simpa [State.reg, Nat.mod_eq_of_lt hi] using this

end Sys2Proof.Machine
end

