-- ==== Sys2Proof/Laws/Memory.lean ====
section
/-! SUPPORT. Memory: a read after a write, the canonical form and that every operation keeps it, and that two memories in
canonical form that read alike are equal. -/

namespace Sys2Proof.Machine

/-- The canonical form as a proposition. -/
theorem Memory.wf_iff (m : Memory) :
    m.wf = true ↔ m.Pairwise (fun c d => c.1 < d.1) ∧ ∀ c ∈ m, c.1 < 65536 ∧ c.2 ≠ blankWord := by
  simp [Memory.wf]

@[simp] theorem Memory.wf_nil : Memory.wf [] = true := by simp [Memory.wf]

/-- The canonical form of a non-empty list. -/
theorem Memory.wf_cons (c : Cell) (m : Memory) :
    Memory.wf (c :: m) = true ↔
      (∀ d ∈ m, c.1 < d.1) ∧ c.1 < 65536 ∧ c.2 ≠ blankWord ∧ Memory.wf m = true := by
  simp only [Memory.wf_iff, List.pairwise_cons, List.mem_cons, forall_eq_or_imp]
  tauto

/-- A key below all keys reads as blank. -/
theorem Memory.wordAt_below {m : Memory} {a : Nat} (h : ∀ d ∈ m, a < d.1) : m.wordAt a = blankWord := by
  induction m with
  | nil => rfl
  | cons c m ih =>
    have hc := h c (by simp)
    simp only [Memory.wordAt]
    rw [if_neg (by omega)]
    exact ih (fun d hd => h d (by simp [hd]))

/-- The keys of an inserted-into memory are the old ones and the new one. -/
theorem Memory.mem_store {m : Memory} {a : Nat} {w : Word} {d : Cell} (h : d ∈ m.store a w) :
    d ∈ m ∨ (d = (a, w) ∧ w ≠ blankWord) := by
  induction m with
  | nil =>
    by_cases hw : w = blankWord <;> simp_all [Memory.store]
  | cons c m ih =>
    by_cases hw : w = blankWord <;> simp only [Memory.store, hw] at h <;> split at h
    all_goals try split at h
    all_goals simp_all
    all_goals tauto

/-- A write keeps the canonical form. -/
theorem Memory.wf_store {m : Memory} (hm : m.wf = true) {a : Nat} (ha : a < 65536) (w : Word) :
    (m.store a w).wf = true := by
  induction m with
  | nil => by_cases hw : w = blankWord <;> simp [Memory.store, hw, Memory.wf_cons, ha]
  | cons c m ih =>
    obtain ⟨hlt, hc, hb, hm'⟩ := (Memory.wf_cons c m).mp hm
    simp only [Memory.store]
    split
    · rename_i hac
      split
      · exact hm
      · rename_i hw
        refine (Memory.wf_cons _ _).mpr ⟨?_, ha, hw, hm⟩
        rintro d (_ | ⟨_, hd⟩)
        · exact hac
        · exact Nat.lt_trans hac (hlt d hd)
    · split
      · rename_i hac
        split
        · exact hm'
        · rename_i hw
          exact (Memory.wf_cons _ _).mpr ⟨fun d hd => hac ▸ hlt d hd, ha, hw, hm'⟩
      · rename_i h1 h2
        refine (Memory.wf_cons _ _).mpr ⟨?_, hc, hb, ih hm'⟩
        intro d hd
        rcases Memory.mem_store hd with h | ⟨rfl, _⟩
        · exact hlt d h
        · show c.1 < a
          omega

/-- A read after a write gives the value written, and elsewhere what it gave before. -/
theorem Memory.wordAt_store {m : Memory} (hm : m.wf = true) (a : Nat) (w : Word) (b : Nat) :
    (m.store a w).wordAt b = if b = a then w else m.wordAt b := by
  induction m with
  | nil =>
    by_cases hw : w = blankWord
    · simp [Memory.store, hw, Memory.wordAt]
    · by_cases hb : b = a <;> simp [Memory.store, hw, Memory.wordAt, hb, eq_comm]
      simp [Ne.symm hb]
  | cons c m ih =>
    obtain ⟨hlt, hc, hb, hm'⟩ := (Memory.wf_cons c m).mp hm
    simp only [Memory.store]
    split
    · rename_i hac
      have hbl : Memory.wordAt (c :: m) a = blankWord := by
        apply Memory.wordAt_below
        rintro d (_ | ⟨_, hd⟩)
        · exact hac
        · exact Nat.lt_trans hac (hlt d hd)
      split
      · rename_i hw
        by_cases hba : b = a
        · simp only [hba, if_true, hw, hbl]
        · simp [hba]
      · by_cases hba : b = a
        · simp [Memory.wordAt, hba]
        · simp [Memory.wordAt, hba, Ne.symm hba]
    · split
      · rename_i hac
        have hbl : Memory.wordAt m a = blankWord := Memory.wordAt_below (fun d hd => hac ▸ hlt d hd)
        split
        · rename_i hw
          by_cases hba : b = a
          · simp only [hba, if_true, hw, hbl]
          · have : c.1 ≠ b := by omega
            simp [Memory.wordAt, hba, this]
        · by_cases hba : b = a
          · simp [Memory.wordAt, hba]
          · have : c.1 ≠ b := by omega
            simp [Memory.wordAt, hba, Ne.symm hba, this]
      · rename_i h1 h2
        simp only [Memory.wordAt, ih hm']
        by_cases hcb : c.1 = b
        · have : b ≠ a := by omega
          simp [hcb, this]
        · simp [hcb]

/-- Memories in canonical form that read alike are the same data. -/
theorem Memory.ext_of_wf {m n : Memory} (hm : m.wf = true) (hn : n.wf = true)
    (h : ∀ a, a < 65536 → m.wordAt a = n.wordAt a) : m = n := by
  induction m generalizing n with
  | nil =>
    cases n with
    | nil => rfl
    | cons d n =>
      obtain ⟨_, hd, hb, _⟩ := (Memory.wf_cons d n).mp hn
      have := h d.1 hd
      simp [Memory.wordAt] at this
      exact absurd this.symm hb
  | cons c m ih =>
    obtain ⟨hlt, hc, hb, hm'⟩ := (Memory.wf_cons c m).mp hm
    cases n with
    | nil =>
      have := h c.1 hc
      simp [Memory.wordAt] at this
      exact absurd this hb
    | cons d n =>
      obtain ⟨hlt', hd, hb', hn'⟩ := (Memory.wf_cons d n).mp hn
      have key : c.1 = d.1 := by
        rcases Nat.lt_trichotomy c.1 d.1 with hcd | hcd | hcd
        · have h1 := h c.1 hc
          rw [Memory.wordAt_below (m := d :: n) (by
            rintro e (_ | ⟨_, he⟩)
            · exact hcd
            · exact Nat.lt_trans hcd (hlt' e he))] at h1
          simp [Memory.wordAt] at h1
          exact absurd h1 hb
        · exact hcd
        · have h1 := h d.1 hd
          rw [Memory.wordAt_below (m := c :: m) (by
            rintro e (_ | ⟨_, he⟩)
            · exact hcd
            · exact Nat.lt_trans hcd (hlt e he))] at h1
          simp [Memory.wordAt] at h1
          exact absurd h1.symm hb'
      have val : c.2 = d.2 := by
        have h1 := h c.1 hc
        simpa [Memory.wordAt, key] using h1
      have tail : m = n := by
        apply ih hm' hn'
        intro a ha
        by_cases hac : a = c.1
        · rw [Memory.wordAt_below (fun e he => hac ▸ hlt e he),
            Memory.wordAt_below (fun e he => by rw [hac, key]; exact hlt' e he)]
        · have h1 := h a ha
          have hda : d.1 ≠ a := by omega
          simpa [Memory.wordAt, Ne.symm hac, hda] using h1
      rw [tail, Prod.ext key val]

/-- A read of a word after a store to one (20_memory.md R42, R54). -/
theorem State.word_setWord {s : State} (hm : s.mem.wf = true) (a v x : Word) :
    (s.setWord a v).word x = if x = a then v else s.word x := by
  unfold State.word
  rw [State.mem_setWord, Memory.wordAt_store hm]
  by_cases h : x = a
  · simp [h]
  · have : x.toNat ≠ a.toNat := fun e => h (BitVec.eq_of_toNat_eq e)
    simp [h, this]

/-- A store to a word keeps the canonical form. -/
theorem State.wf_setWord {s : State} (hm : s.mem.wf = true) (a v : Word) : (s.setWord a v).mem.wf = true :=
  Memory.wf_store hm a.isLt v

end Sys2Proof.Machine
end

