-- ==== Sys2Proof/Laws/Ops.lean ====
section
/-! SUPPORT. What the shared operations can do: the keyboard poll, the intercepted read, the fetch, the link and the fatal path. -/

namespace Sys2Proof.Machine

/-- A poll finds the next byte when the stream has one and the host's answer is that it is pending. -/
theorem kbPoll_pending {s : State} {b : Byte} {rest : List Byte} (hi : s.input = b :: rest)
    (hk : Config.keyPending s.draws = true) : kbPoll s = (some b, (s.setInput rest).drawn) := by
  simp [kbPoll, hi, hk]

/-- Otherwise it finds nothing. -/
theorem kbPoll_idle {s : State} (h : s.input = [] ∨ Config.keyPending s.draws = false) : kbPoll s = (none, s.drawn) := by
  unfold kbPoll
  rcases hi : s.input with _ | ⟨b, rest⟩
  · rfl
  · have hk : Config.keyPending s.draws = false := by simpa [hi] using h
    simp [hk]

/-- The two things that `kbsr_poll` can do. -/
theorem kbsrPoll_cases (s : State) :
    (∃ b rest, s.input = b :: rest ∧ Config.keyPending s.draws = true ∧
      kbsrPoll s = (((s.setInput rest).drawn).setWord s.cfg.kbsrAddr 0x8000#16).setWord s.cfg.kbdrAddr (latched b)) ∨
    ((s.input = [] ∨ Config.keyPending s.draws = false) ∧
      kbsrPoll s = s.drawn.setWord s.cfg.kbsrAddr 0x0000#16) := by
  rcases hi : s.input with _ | ⟨b, rest⟩
  · exact .inr ⟨.inl rfl, by simp [kbsrPoll, kbPoll, hi]⟩
  · cases hk : Config.keyPending s.draws
    · exact .inr ⟨.inr rfl, by simp [kbsrPoll, kbPoll, hi, hk]⟩
    · exact .inl ⟨b, rest, rfl, rfl, by simp [kbsrPoll, kbPoll, hi, hk]⟩

/-- The three things that the interception of a read can do. -/
theorem intercept_cases (s : State) (a : Word) :
    (a ≠ s.cfg.kbsrAddr ∧ intercept s a = s) ∨
    (a = s.cfg.kbsrAddr ∧ ∃ b rest, s.input = b :: rest ∧ Config.keyPending s.draws = true ∧ intercept s a =
      (((s.setInput rest).drawn).setWord s.cfg.kbsrAddr 0x8000#16).setWord s.cfg.kbdrAddr (latched b)) ∨
    (a = s.cfg.kbsrAddr ∧ (s.input = [] ∨ Config.keyPending s.draws = false) ∧
      intercept s a = s.drawn.setWord s.cfg.kbsrAddr 0x0000#16) := by
  unfold intercept
  by_cases h : a = s.cfg.kbsrAddr
  · rcases kbsrPoll_cases s with ⟨b, rest, h1, h2, h3⟩ | ⟨h1, h2⟩
    · exact .inr (.inl ⟨h, b, rest, h1, h2, by simp [h, h3]⟩)
    · exact .inr (.inr ⟨h, h1, by simp [h, h2]⟩)
  · exact .inl ⟨h, by simp [h]⟩

@[simp] theorem intercept_of_ne {s : State} {a : Word} (h : a ≠ s.cfg.kbsrAddr) : intercept s a = s := by
  simp [intercept, h]

section Fields

variable (s : State) (a : Word)

@[simp] theorem cfg_intercept : (intercept s a).cfg = s.cfg := by
  rcases intercept_cases s a with ⟨_, h⟩ | ⟨_, b, rest, _, _, h⟩ | ⟨_, _, h⟩ <;> rw [h] <;> simp
@[simp] theorem regs_intercept : (intercept s a).regs = s.regs := by
  rcases intercept_cases s a with ⟨_, h⟩ | ⟨_, b, rest, _, _, h⟩ | ⟨_, _, h⟩ <;> rw [h] <;> simp
@[simp] theorem reg_intercept (r : RegIdx) : (intercept s a).reg r = s.reg r := by simp [State.reg]
@[simp] theorem pc_intercept : (intercept s a).pc = s.pc := by
  rcases intercept_cases s a with ⟨_, h⟩ | ⟨_, b, rest, _, _, h⟩ | ⟨_, _, h⟩ <;> rw [h] <;> simp
@[simp] theorem cond_intercept : (intercept s a).cond = s.cond := by
  rcases intercept_cases s a with ⟨_, h⟩ | ⟨_, b, rest, _, _, h⟩ | ⟨_, _, h⟩ <;> rw [h] <;> simp
@[simp] theorem running_intercept : (intercept s a).running = s.running := by
  rcases intercept_cases s a with ⟨_, h⟩ | ⟨_, b, rest, _, _, h⟩ | ⟨_, _, h⟩ <;> rw [h] <;> simp
@[simp] theorem stopCause_intercept : (intercept s a).stopCause = s.stopCause := by
  rcases intercept_cases s a with ⟨_, h⟩ | ⟨_, b, rest, _, _, h⟩ | ⟨_, _, h⟩ <;> rw [h] <;> simp
@[simp] theorem phase_intercept : (intercept s a).phase = s.phase := by
  rcases intercept_cases s a with ⟨_, h⟩ | ⟨_, b, rest, _, _, h⟩ | ⟨_, _, h⟩ <;> rw [h] <;> simp
@[simp] theorem output_intercept : (intercept s a).output = s.output := by
  rcases intercept_cases s a with ⟨_, h⟩ | ⟨_, b, rest, _, _, h⟩ | ⟨_, _, h⟩ <;> rw [h] <;> simp
@[simp] theorem instr_intercept : (intercept s a).instr = s.instr := by
  rcases intercept_cases s a with ⟨_, h⟩ | ⟨_, b, rest, _, _, h⟩ | ⟨_, _, h⟩ <;> rw [h] <;> simp

/-- An intercepted read takes at most one byte, the oldest. -/
theorem input_intercept : ∃ taken : List Byte, s.input = taken ++ (intercept s a).input ∧ taken.length ≤ 1 := by
  rcases intercept_cases s a with ⟨_, h⟩ | ⟨_, b, rest, hi, _, h⟩ | ⟨_, _, h⟩ <;> rw [h]
  · exact ⟨[], by simp⟩
  · exact ⟨[b], by simp [hi]⟩
  · exact ⟨[], by simp⟩

/-- An intercepted read keeps the canonical form. -/
theorem wf_intercept (hm : s.mem.wf = true) : (intercept s a).mem.wf = true := by
  rcases intercept_cases s a with ⟨_, h⟩ | ⟨_, b, rest, _, _, h⟩ | ⟨_, _, h⟩ <;> rw [h]
  · exact hm
  · exact State.wf_setWord (State.wf_setWord (s := (s.setInput rest).drawn) hm _ _) _ _
  · exact State.wf_setWord (s := s.drawn) hm _ _

/-- An intercepted read leaves every word but the two keyboard words alone. -/
theorem word_intercept (hm : s.mem.wf = true) {x : Word} (h1 : x ≠ s.cfg.kbsrAddr) (h2 : x ≠ s.cfg.kbdrAddr) :
    (intercept s a).word x = s.word x := by
  rcases intercept_cases s a with ⟨_, h⟩ | ⟨_, b, rest, _, _, h⟩ | ⟨_, _, h⟩ <;> rw [h]
  · rw [State.word_setWord (State.wf_setWord (s := (s.setInput rest).drawn) hm _ _),
      State.word_setWord (s := (s.setInput rest).drawn) hm]
    simp [h1, h2]
  · rw [State.word_setWord (s := s.drawn) hm]
    simp [h1]

end Fields

/-- A read of any address but `KBSR_ADDR` returns the stored word and changes nothing (20_memory.md R41, R49). -/
theorem memRead_of_ne {s : State} {a : Word} (h : a ≠ s.cfg.kbsrAddr) : memRead s a = (s.word a, s) := by
  simp [memRead, h]

@[simp] theorem memRead_fst (s : State) (a : Word) : (memRead s a).1 = (intercept s a).word a := rfl
@[simp] theorem memRead_snd (s : State) (a : Word) : (memRead s a).2 = intercept s a := rfl

/-- What the fetch does, field by field. -/
theorem fetch_eq (s : State) :
    fetch s = ((intercept s s.pc).setInstr ((intercept s s.pc).word s.pc)).setPc (s.pc + 1#16) := rfl

@[simp] theorem cfg_fetch (s : State) : (fetch s).cfg = s.cfg := by simp [fetch_eq]
@[simp] theorem regs_fetch (s : State) : (fetch s).regs = s.regs := by simp [fetch_eq]
@[simp] theorem reg_fetch (s : State) (r : RegIdx) : (fetch s).reg r = s.reg r := by simp [fetch_eq]
@[simp] theorem pc_fetch (s : State) : (fetch s).pc = s.pc + 1#16 := rfl
@[simp] theorem cond_fetch (s : State) : (fetch s).cond = s.cond := by simp [fetch_eq]
@[simp] theorem running_fetch (s : State) : (fetch s).running = s.running := by simp [fetch_eq]
@[simp] theorem stopCause_fetch (s : State) : (fetch s).stopCause = s.stopCause := by simp [fetch_eq]
@[simp] theorem phase_fetch (s : State) : (fetch s).phase = s.phase := by simp [fetch_eq]
@[simp] theorem output_fetch (s : State) : (fetch s).output = s.output := by simp [fetch_eq]

/-- The fetch keeps the canonical form. -/
theorem wf_fetch {s : State} (hm : s.mem.wf = true) : (fetch s).mem.wf = true := wf_intercept s s.pc hm

/-- The fetch takes at most one byte of the input. -/
theorem input_fetch (s : State) : ∃ taken : List Byte, s.input = taken ++ (fetch s).input ∧ taken.length ≤ 1 :=
  input_intercept s s.pc

section Link

variable (s : State)

@[simp] theorem reg_link (r : RegIdx) : (link s).reg r = if r = 7#3 then s.pc else s.reg r := by simp [link]
@[simp] theorem cfg_link : (link s).cfg = s.cfg := rfl
@[simp] theorem pc_link : (link s).pc = s.pc := rfl
@[simp] theorem cond_link : (link s).cond = s.cond := rfl
@[simp] theorem mem_link : (link s).mem = s.mem := rfl
@[simp] theorem word_link (a : Word) : (link s).word a = s.word a := rfl
@[simp] theorem running_link : (link s).running = s.running := rfl
@[simp] theorem stopCause_link : (link s).stopCause = s.stopCause := rfl
@[simp] theorem phase_link : (link s).phase = s.phase := rfl
@[simp] theorem input_link : (link s).input = s.input := rfl
@[simp] theorem output_link : (link s).output = s.output := rfl
@[simp] theorem instr_link : (link s).instr = s.instr := rfl
@[simp] theorem draws_link : (link s).draws = s.draws := rfl

end Link

section Fatal

variable (k : FatalKind) (s : State)

@[simp] theorem regs_raiseFatal : (raiseFatal k s).regs = s.regs := rfl
@[simp] theorem reg_raiseFatal (r : RegIdx) : (raiseFatal k s).reg r = s.reg r := rfl
@[simp] theorem cfg_raiseFatal : (raiseFatal k s).cfg = s.cfg := rfl
@[simp] theorem pc_raiseFatal : (raiseFatal k s).pc = s.pc := rfl
@[simp] theorem cond_raiseFatal : (raiseFatal k s).cond = s.cond := rfl
@[simp] theorem mem_raiseFatal : (raiseFatal k s).mem = s.mem := rfl
@[simp] theorem word_raiseFatal (a : Word) : (raiseFatal k s).word a = s.word a := rfl
@[simp] theorem running_raiseFatal : (raiseFatal k s).running = false := rfl
@[simp] theorem stopCause_raiseFatal : (raiseFatal k s).stopCause = .fatal k s.instr (s.pc - 1#16) := rfl
@[simp] theorem phase_raiseFatal : (raiseFatal k s).phase = s.phase := rfl
@[simp] theorem input_raiseFatal : (raiseFatal k s).input = s.input := rfl
@[simp] theorem output_raiseFatal : (raiseFatal k s).output = s.output := rfl
@[simp] theorem instr_raiseFatal : (raiseFatal k s).instr = s.instr := rfl
@[simp] theorem draws_raiseFatal : (raiseFatal k s).draws = s.draws := rfl

end Fatal

end Sys2Proof.Machine
end

