-- ==== Sys2Proof/Laws/Flags.lean ====
section
/-! SUPPORT. The condition flags, the result write, and what each leaves alone. -/

namespace Sys2Proof.Machine

/-- COND is Z for zero, N for a negative word, P for a positive one (10_state.md R24). -/
theorem condOf_eq_z (v : Word) : condOf v = .z ↔ v.toNat = 0 := by
  unfold condOf
  split
  · simp_all
  · rename_i h
    have : v.toNat ≠ 0 := fun e => h (BitVec.eq_of_toNat_eq e)
    split <;> simp_all

theorem condOf_eq_n (v : Word) : condOf v = .n ↔ v.toInt < 0 := by
  unfold condOf
  rw [BitVec.toInt_neg_iff, BitVec.msb_eq_decide]
  have := v.isLt
  split
  · simp_all
  · split <;> simp_all <;> omega

theorem condOf_eq_p (v : Word) : condOf v = .p ↔ 0 < v.toInt := by
  have hz := condOf_eq_z v
  have hn := condOf_eq_n v
  have h0 : v.toInt = 0 ↔ v.toNat = 0 := by
    rw [BitVec.toInt_eq_toNat_cond]
    have := v.isLt
    split <;> omega
  cases h : condOf v <;> simp_all <;> omega

section Result

variable (dr : RegIdx) (v : Word) (s : State)

@[simp] theorem reg_writeResult (r : RegIdx) : (writeResult dr v s).reg r = if r = dr then v else s.reg r := by
  simp [writeResult, setcc]
@[simp] theorem cond_writeResult : (writeResult dr v s).cond = condOf v := rfl
@[simp] theorem word_writeResult (a : Word) : (writeResult dr v s).word a = s.word a := rfl
@[simp] theorem cfg_writeResult : (writeResult dr v s).cfg = s.cfg := rfl
@[simp] theorem pc_writeResult : (writeResult dr v s).pc = s.pc := rfl
@[simp] theorem mem_writeResult : (writeResult dr v s).mem = s.mem := rfl
@[simp] theorem running_writeResult : (writeResult dr v s).running = s.running := rfl
@[simp] theorem stopCause_writeResult : (writeResult dr v s).stopCause = s.stopCause := rfl
@[simp] theorem phase_writeResult : (writeResult dr v s).phase = s.phase := rfl
@[simp] theorem input_writeResult : (writeResult dr v s).input = s.input := rfl
@[simp] theorem output_writeResult : (writeResult dr v s).output = s.output := rfl
@[simp] theorem instr_writeResult : (writeResult dr v s).instr = s.instr := rfl
@[simp] theorem draws_writeResult : (writeResult dr v s).draws = s.draws := rfl

end Result

/-- BR's test: the bit of the mask that COND names (41_control.md R90). -/
theorem branchTaken_eq (n z p : Bool) (c : Cond) :
    branchTaken n z p c = match c with | .n => n | .z => z | .p => p := by
  cases n <;> cases z <;> cases p <;> cases c <;> decide

end Sys2Proof.Machine
end

