-- ==== Sys2Proof/Laws/Operands.lean ====
section
/-! SUPPORT. Sign extension, effective addresses and the walk of a string. -/

namespace Sys2Proof.Machine

/-- Sign extension keeps the signed value (00_scope.md R8). -/
theorem toInt_sext {n : Nat} (h : n ≤ 16) (v : BitVec n) : (sext v).toInt = v.toInt := by
  unfold sext
  exact BitVec.toInt_signExtend_of_le h

/-- A word plus a sign-extended offset is the integer sum modulo 2^16 (20_memory.md R47). -/
theorem add_sext {n : Nat} (h : n ≤ 16) (w : Word) (v : BitVec n) :
    w + sext v = BitVec.ofInt 16 ((w.toNat : Int) + v.toInt) := by
  rw [← toInt_sext h v]
  apply BitVec.eq_of_toInt_eq
  rw [BitVec.toInt_add, BitVec.toInt_ofInt]
  have hw : w.toInt = (w.toNat : Int).bmod (2 ^ 16) := BitVec.toInt_eq_toNat_bmod w
  rw [hw, Int.bmod_add_bmod]

/-- PC-relative addresses (42_load_store.md R107). -/
theorem pcRelative_eq {n : Nat} (h : n ≤ 16) (s : State) (v : BitVec n) :
    pcRelative s v = BitVec.ofInt 16 ((s.pc.toNat : Int) + v.toInt) := add_sext h _ _

/-- Base-plus-offset addresses (42_load_store.md R107). -/
theorem baseOffset_eq (s : State) (r : RegIdx) (v : BitVec 6) :
    baseOffset s r v = BitVec.ofInt 16 (((s.reg r).toNat : Int) + v.toInt) := add_sext (by omega) _ _

/-- A walk that starts at a device word reads nothing (20_memory.md R48). -/
theorem wordsBeforeDevice_eq_zero (c : Config) (a : Word) :
    wordsBeforeDevice c a = 0 ↔ a = c.kbsrAddr ∨ a = c.kbdrAddr := by
  unfold wordsBeforeDevice
  constructor
  · intro h
    rcases Nat.min_eq_zero_iff.mp h with h | h
    · exact .inl (by bv_omega)
    · exact .inr (by bv_omega)
  · rintro (h | h) <;> subst h <;> simp

/-- Elsewhere it reads one word more than the walk from the next address. -/
theorem wordsBeforeDevice_succ {c : Config} {a : Word} (h1 : a ≠ c.kbsrAddr) (h2 : a ≠ c.kbdrAddr) :
    wordsBeforeDevice c a = wordsBeforeDevice c (a + 1#16) + 1 := by
  unfold wordsBeforeDevice
  have e1 : (c.kbsrAddr - a).toNat = (c.kbsrAddr - (a + 1#16)).toNat + 1 := by bv_omega
  have e2 : (c.kbdrAddr - a).toNat = (c.kbdrAddr - (a + 1#16)).toNat + 1 := by bv_omega
  omega

/-- The walk of PUTS and PUTSP, one word at a time: refuse at a device word, stop at a zero word, else go on at the next address
(43_trap.md R124, R126). -/
theorem stringWords_eq (s : State) (a : Word) :
    stringWords s a =
      if a = s.cfg.kbsrAddr ∨ a = s.cfg.kbdrAddr then none
      else if s.word a = 0x0000#16 then some []
      else (stringWords s (a + 1#16)).map (s.word a :: ·) := by
  unfold stringWords
  split
  · rename_i h
    rw [(wordsBeforeDevice_eq_zero s.cfg a).mpr h]
    rfl
  · rename_i h
    have h' := not_or.mp h
    rw [wordsBeforeDevice_succ h'.1 h'.2]
    rfl

/-- The words of a string depend on memory and the device addresses only. -/
theorem stringWords_congr {s t : State} (hm : s.mem = t.mem) (hc : s.cfg = t.cfg) (a : Word) :
    stringWords s a = stringWords t a := by
  simp [stringWords, hm, hc]

end Sys2Proof.Machine
end

