-- ==== Sys2Proof/Laws/Step.lean ====
section
/-! SUPPORT. What a step and a host move can do, said once: the shapes that a next state of `exec`, `resumeInput` and `hostMove` can have.
Invariants and whole-machine rules are case analyses over these. -/

namespace Sys2Proof.Machine

/-- u is s after n intercepted reads (20_memory.md R41). -/
inductive Reads (s : State) : Nat → State → Prop where
  | none : Reads s 0 s
  | more {n : Nat} {u : State} (a : Word) (h : Reads s n u) : Reads s (n + 1) (intercept u a)

section Reads

variable {s u : State} {n : Nat}

theorem Reads.cfg (h : Reads s n u) : u.cfg = s.cfg := by
  induction h with
  | none => rfl
  | more a _ ih => rw [cfg_intercept, ih]
theorem Reads.regs (h : Reads s n u) : u.regs = s.regs := by
  induction h with
  | none => rfl
  | more a _ ih => rw [regs_intercept, ih]
theorem Reads.reg (h : Reads s n u) (r : RegIdx) : u.reg r = s.reg r := by simp [State.reg, h.regs]
theorem Reads.pc (h : Reads s n u) : u.pc = s.pc := by
  induction h with
  | none => rfl
  | more a _ ih => rw [pc_intercept, ih]
theorem Reads.cond (h : Reads s n u) : u.cond = s.cond := by
  induction h with
  | none => rfl
  | more a _ ih => rw [cond_intercept, ih]
theorem Reads.running (h : Reads s n u) : u.running = s.running := by
  induction h with
  | none => rfl
  | more a _ ih => rw [running_intercept, ih]
theorem Reads.stopCause (h : Reads s n u) : u.stopCause = s.stopCause := by
  induction h with
  | none => rfl
  | more a _ ih => rw [stopCause_intercept, ih]
theorem Reads.phase (h : Reads s n u) : u.phase = s.phase := by
  induction h with
  | none => rfl
  | more a _ ih => rw [phase_intercept, ih]
theorem Reads.output (h : Reads s n u) : u.output = s.output := by
  induction h with
  | none => rfl
  | more a _ ih => rw [output_intercept, ih]
theorem Reads.instr (h : Reads s n u) : u.instr = s.instr := by
  induction h with
  | none => rfl
  | more a _ ih => rw [instr_intercept, ih]

/-- Reads keep the canonical form. -/
theorem Reads.wf (h : Reads s n u) (hm : s.mem.wf = true) : u.mem.wf = true := by
  induction h with
  | none => exact hm
  | more a _ ih => exact wf_intercept _ a ih

/-- Reads leave every word but the two keyboard words alone. -/
theorem Reads.word (h : Reads s n u) (hm : s.mem.wf = true) {x : Word} (h1 : x ≠ s.cfg.kbsrAddr) (h2 : x ≠ s.cfg.kbdrAddr) :
    u.word x = s.word x := by
  induction h with
  | none => rfl
  | more a hu ih => rw [word_intercept _ a (hu.wf hm) (by rwa [hu.cfg]) (by rwa [hu.cfg]), ih]

/-- n reads take at most n bytes, from the front of the input. -/
theorem Reads.input (h : Reads s n u) : ∃ taken : List Byte, s.input = taken ++ u.input ∧ taken.length ≤ n := by
  induction h with
  | none => exact ⟨[], rfl, Nat.le_refl 0⟩
  | more a hu ih =>
    obtain ⟨t1, e1, l1⟩ := ih
    obtain ⟨t2, e2, l2⟩ := input_intercept _ a
    exact ⟨t1 ++ t2, by rw [e1, e2, List.append_assoc], by simp only [List.length_append]; omega⟩

end Reads

/-- The shapes of a next state of `exec i s`, each with what the tables of Safety.lean say of i. -/
inductive Effect (i : Instr) (s : State) : State → Prop where
  /-- ADD, AND, NOT, LEA and the loads: at most two reads, then the result write. -/
  | result {dr : RegIdx} {n : Nat} {u : State} (v : Word) (hf : flagSetter i = some dr) (hw : regsWritten i = [dr])
      (hp : writesPc i = false) (ha : storeAddress i s = none) (hn : n ≤ 2) (hu : Reads s n u) :
      Effect i s (writeResult dr v u)
  /-- BR, JMP, RET. -/
  | jump (v : Word) (hf : flagSetter i = none) (hw : regsWritten i = []) (hp : writesPc i = true)
      (ha : storeAddress i s = none) : Effect i s (s.setPc v)
  /-- JSR, JSRR. -/
  | call (v : Word) (hf : flagSetter i = none) (hw : regsWritten i = [7#3]) (hp : writesPc i = true)
      (ha : storeAddress i s = none) : Effect i s ((link s).setPc v)
  /-- ST, STI, STR: at most one read, then the store. -/
  | store {n : Nat} {u : State} (a : Word) (r : RegIdx) (hf : flagSetter i = none) (hw : regsWritten i = [])
      (hp : writesPc i = false) (ha : storeAddress i s = some a) (hn : n ≤ 1) (hu : Reads s n u) :
      Effect i s (u.setWord a (s.reg r))
  /-- OUT, PUTS, PUTSP. -/
  | output (bs : List Byte) (hf : flagSetter i = none) (hw : regsWritten i = [7#3]) (hp : writesPc i = false)
      (ha : storeAddress i s = none) : Effect i s ((link s).emit bs)
  /-- GETC, IN. -/
  | wait (bs : List Byte) (k : InputService) (hf : flagSetter i = none) (hw : regsWritten i = [7#3]) (hp : writesPc i = false)
      (ha : storeAddress i s = none) : Effect i s (((link s).emit bs).setPhase (.waitIn k))
  /-- HALT. -/
  | halt (bs : List Byte) (v : Word) (hf : flagSetter i = none) (hw : regsWritten i = [7#3]) (hp : writesPc i = true)
      (ha : storeAddress i s = none) (hi : i = .halt ∨ i = .trap 0x25#8) :
      Effect i s ((((link s).emit bs).setRun false .halt).setPc v).drawn
  /-- TRAP with an unknown vector. -/
  | unknownVector (v : BitVec 8) (hf : flagSetter i = none) (hw : regsWritten i = [7#3]) (hp : writesPc i = false)
      (ha : storeAddress i s = none) (hi : i = .trap v) : Effect i s (raiseFatal .unknownTrapVector (link s))
  /-- RTI and the reserved opcode. -/
  | unimplemented (hf : flagSetter i = none) (hw : regsWritten i = []) (hp : writesPc i = false)
      (ha : storeAddress i s = none) (hi : i = .rti ∨ i = .reserved) : Effect i s (raiseFatal .unimplementedOpcode s)

/-- The two outcomes of a string service. -/
theorem writeString_cases (f : Word → List Byte) (s : State) :
    (∃ ws, stringWords s (s.reg 0#3) = some ws ∧ writeString f s = .next (s.emit (ws.flatMap f))) ∨
    (stringWords s (s.reg 0#3) = none ∧ writeString f s = .refused .stringReachesDevice) := by
  unfold writeString
  split
  · exact .inl ⟨_, by assumption, rfl⟩
  · exact .inr ⟨by assumption, rfl⟩

/-- A string service that answers a next state has only emitted. -/
theorem writeString_next {f : Word → List Byte} {s t : State} (h : writeString f s = .next t) : ∃ bs, t = s.emit bs := by
  rcases writeString_cases f s with ⟨ws, _, h2⟩ | ⟨_, h2⟩ <;> rw [h2] at h <;> cases h
  exact ⟨_, rfl⟩

@[simp] theorem State.emit_nil (s : State) : s.emit [] = s := by simp [State.emit]

/-- INVERSION OF EXEC: every next state of every instruction has one of the nine shapes. -/
theorem exec_effect {i : Instr} {s t : State} (h : exec i s = .next t) : Effect i s t := by
  cases i
  case br n z p off =>
    simp only [exec, execBr, Host.Outcome.next.injEq] at h
    subst h
    split
    · exact .jump _ rfl rfl rfl rfl
    · exact .jump s.pc rfl rfl rfl rfl
  case trap v =>
    simp only [exec, execTrap, dispatchTrap] at h
    repeat' split at h
    · cases h; rw [← State.emit_nil (link s)]
      exact .wait _ _ rfl rfl (by simp_all [writesPc]) rfl
    · cases h; exact .output _ rfl rfl (by simp_all [writesPc]) rfl
    · obtain ⟨bs, rfl⟩ := writeString_next h
      exact .output _ rfl rfl (by simp_all [writesPc]) rfl
    · cases h; exact .wait _ _ rfl rfl (by simp_all [writesPc]) rfl
    · obtain ⟨bs, rfl⟩ := writeString_next h
      exact .output _ rfl rfl (by simp_all [writesPc]) rfl
    · cases h; exact .halt _ _ rfl rfl (by simp_all [writesPc]) rfl (by simp_all)
    · cases h; exact .unknownVector v rfl rfl (by simp_all [writesPc]) rfl rfl
  case getc => cases h; rw [← State.emit_nil (link s)]; exact .wait _ _ rfl rfl rfl rfl
  case inp => cases h; exact .wait _ _ rfl rfl rfl rfl
  case out => cases h; exact .output _ rfl rfl rfl rfl
  case puts => obtain ⟨bs, rfl⟩ := writeString_next h; exact .output _ rfl rfl rfl rfl
  case putsp => obtain ⟨bs, rfl⟩ := writeString_next h; exact .output _ rfl rfl rfl rfl
  case halt => cases h; exact .halt _ _ rfl rfl rfl rfl (.inl rfl)
  case rti => cases h; exact .unimplemented rfl rfl rfl rfl (.inl rfl)
  case reserved => cases h; exact .unimplemented rfl rfl rfl rfl (.inr rfl)
  case jmp => cases h; exact .jump _ rfl rfl rfl rfl
  case ret => cases h; exact .jump _ rfl rfl rfl rfl
  case jsr => cases h; exact .call _ rfl rfl rfl rfl
  case jsrr => cases h; exact .call _ rfl rfl rfl rfl
  case st => cases h; exact .store _ _ rfl rfl rfl rfl (by omega) .none
  case str => cases h; exact .store _ _ rfl rfl rfl rfl (by omega) .none
  case sti sr off =>
    cases h
    have e : (indirect s off).2.reg sr = s.reg sr := by simp [indirect]
    simp only [e]
    exact .store _ sr rfl rfl rfl rfl (Nat.le_refl 1) (.more _ .none)
  case ld => cases h; exact .result _ rfl rfl rfl rfl (by omega) (.more _ .none)
  case ldr => cases h; exact .result _ rfl rfl rfl rfl (by omega) (.more _ .none)
  case ldi => cases h; exact .result _ rfl rfl rfl rfl (by omega) (.more _ (.more _ .none))
  all_goals (cases h; exact .result _ rfl rfl rfl rfl (by omega) .none)

/-- A step of a stopped core does nothing. -/
theorem step_stopped {s : State} (h : s.running = false) : step s = .next s := by simp [step, h]

/-- A step of a waiting core continues the service. -/
theorem step_waiting {s : State} {k : InputService} (hr : s.running = true) (hp : s.phase = .waitIn k) :
    step s = resumeInput k s := by simp [step, hr, hp]

/-- A step between instructions executes what the fetched word decodes to. -/
theorem step_idle {s : State} (hr : s.running = true) (hp : s.phase = .idle) :
    step s = exec (decode s.cfg.opcodeMap (fetch s).instr) (fetch s) := by simp [step, hr, hp]

/-- The three ways a step can go. -/
theorem step_cases (s : State) :
    (s.running = false ∧ step s = .next s) ∨
    (∃ k, s.running = true ∧ s.phase = .waitIn k ∧ step s = resumeInput k s) ∨
    (s.running = true ∧ s.phase = .idle ∧ step s = exec (decode s.cfg.opcodeMap (fetch s).instr) (fetch s)) := by
  rcases hr : s.running with _ | _
  · exact .inl ⟨rfl, step_stopped hr⟩
  · rcases hp : s.phase with _ | k
    · exact .inr (.inr ⟨rfl, rfl, step_idle hr hp⟩)
    · exact .inr (.inl ⟨k, rfl, rfl, step_waiting hr hp⟩)

/-- What the second transition of GETC and IN can do. -/
theorem resumeInput_cases (k : InputService) (s : State) :
    (s.input = [] ∧ resumeInput k s = .next s) ∨
    ∃ b rest, s.input = b :: rest ∧
      resumeInput k s = .next ((writeInput b ((s.setInput rest).emit (echoOf k b))).setPhase .idle) := by
  unfold resumeInput
  rcases s.input with _ | ⟨b, rest⟩
  · exact .inl ⟨rfl, rfl⟩
  · exact .inr ⟨b, rest, rfl, rfl⟩

/-- The input write changes R0 and, under `TRAP_INPUT_SETS_COND`, COND. -/
theorem writeInput_eq (b : Byte) (s : State) :
    writeInput b s = (s.setReg 0#3 (zext b)).setCond (if s.cfg.trapInputSetsCond then condOf (zext b) else s.cond) := by
  unfold writeInput
  split <;> rfl

/-- The six things that a move of the host can do. -/
theorem hostMove_cases {m : HostMove} {s t : State} (h : hostMove m s = .next t) :
    (∃ b, m = .supply b ∧ t = s.setInput (s.input ++ [b])) ∨
    (m = .stop ∧ (∃ k w a, s.stopCause = .fatal k w a) ∧ t = s) ∨
    (m = .stop ∧ (∀ k w a, s.stopCause ≠ .fatal k w a) ∧ t = (s.setRun false .hostStop).setPhase .idle) ∨
    (m = .start ∧ (∀ k w a, s.stopCause ≠ .fatal k w a) ∧ t = s.setRun true .none) ∨
    (∃ a, m = .read a ∧ s.running = false ∧ s.phase = .idle ∧ t = intercept s a) ∨
    (∃ a v, m = .write a v ∧ s.running = false ∧ s.phase = .idle ∧ t = s.setWord a v) := by
  have key : hostMayUseMemory s = true → s.running = false ∧ s.phase = .idle := by simp [hostMayUseMemory]
  cases m with
  | supply b => cases h; exact .inl ⟨_, rfl, rfl⟩
  | stop =>
    simp only [hostMove, hostStop, Host.Outcome.next.injEq] at h
    split at h
    · subst h; exact .inr (.inl ⟨rfl, ⟨_, _, _, by assumption⟩, rfl⟩)
    · subst h; exact .inr (.inr (.inl ⟨rfl, by assumption, rfl⟩))
  | start =>
    simp only [hostMove, hostStart] at h
    split at h
    · cases h
    · cases h; exact .inr (.inr (.inr (.inl ⟨rfl, by assumption, rfl⟩)))
  | read a =>
    simp only [hostMove, hostRead] at h
    split at h
    · rename_i hh
      cases h
      exact .inr (.inr (.inr (.inr (.inl ⟨_, rfl, (key hh).1, (key hh).2, rfl⟩))))
    · cases h
  | write a v =>
    simp only [hostMove, hostWrite] at h
    split at h
    · rename_i hh
      cases h
      exact .inr (.inr (.inr (.inr (.inr ⟨_, _, rfl, (key hh).1, (key hh).2, rfl⟩))))
    · cases h

/-- What the loader's stores leave: the image at its place, every other word as before (20_memory.md R52). -/
theorem storeImage_spec (image : List Word) : ∀ (n : Nat) (s : State), s.mem.wf = true → n + image.length ≤ 65536 →
    (storeImage (BitVec.ofNat 16 n) image s).mem.wf = true ∧
    (∀ (k : Nat) (h : k < image.length), (storeImage (BitVec.ofNat 16 n) image s).word (BitVec.ofNat 16 (n + k)) = image[k]) ∧
    (∀ a : Word, a.toNat < n ∨ n + image.length ≤ a.toNat → (storeImage (BitVec.ofNat 16 n) image s).word a = s.word a) := by
  induction image with
  | nil => intro n s hm _; exact ⟨hm, by simp, fun _ _ => rfl⟩
  | cons w ws ih =>
    intro n s hm hl
    simp only [List.length_cons] at hl
    have hm' := State.wf_setWord hm (BitVec.ofNat 16 n) w
    have e : BitVec.ofNat 16 n + 1#16 = BitVec.ofNat 16 (n + 1) := by apply BitVec.eq_of_toNat_eq; simp
    obtain ⟨i1, i2, i3⟩ := ih (n + 1) (s.setWord (BitVec.ofNat 16 n) w) hm' (by omega)
    simp only [storeImage, e, memWrite]
    refine ⟨i1, ?_, ?_⟩
    · intro k hk
      cases k with
      | zero =>
        simp only [List.getElem_cons_zero, Nat.add_zero]
        rw [i3 _ (by left; simp; omega), State.word_setWord hm]
        simp
      | succ k =>
        have := i2 k (by simpa using hk)
        simpa [Nat.add_assoc, Nat.add_comm 1 k] using this
    · intro a ha
      simp only [List.length_cons] at ha
      rw [i3 a (by omega), State.word_setWord hm, if_neg]
      rintro rfl
      simp at ha
      omega

end Sys2Proof.Machine
end

