-- ==== Sys2Proof/Laws/Frames.lean ====
section
/-! SUPPORT. The terms of Safety.lean (flags of a word, frames, strings) for each shared operation. -/

namespace Sys2Proof.Machine

/-- `setcc`'s flag is the one that the sign of the word names (spec/10_state.md R24). -/
theorem flagsOf_condOf (v : Word) : FlagsOf (condOf v) v := ⟨condOf_eq_z v, condOf_eq_n v, condOf_eq_p v⟩

/-- The frame of a result write. -/
theorem onlyResult_writeResult (dr : RegIdx) (v : Word) (s : State) : OnlyResult dr s (writeResult dr v s) := by
  refine ⟨fun r hr => ?_, rfl, fun _ => rfl, ⟨rfl, rfl, rfl, rfl, rfl⟩, rfl, rfl, rfl⟩
  simp [hr]

/-- The frame of a jump. -/
theorem onlyPc_setPc (v : Word) (s : State) : OnlyPc s (s.setPc v) :=
  ⟨fun _ => rfl, rfl, fun _ => rfl, ⟨rfl, rfl, rfl, rfl, rfl⟩, rfl, rfl, rfl⟩

/-- The frame of a call. -/
theorem onlyPcAndLink_setPc (v : Word) (s : State) : OnlyPcAndLink s ((link s).setPc v) := by
  refine ⟨fun r hr => ?_, rfl, fun _ => rfl, ⟨rfl, rfl, rfl, rfl, rfl⟩, rfl, rfl, rfl⟩
  simp [hr]

/-- The frame of a store. -/
theorem onlyStored_setWord {s : State} (hm : s.mem.wf = true) (a v : Word) : OnlyStored a v s (s.setWord a v) :=
  ⟨fun x => State.word_setWord hm a v x, fun _ => rfl, rfl, rfl, ⟨rfl, rfl, rfl, rfl, rfl⟩, rfl, rfl, rfl⟩

/-- The frame of an output service. -/
theorem onlyLinkAndOutput_emit (bs : List Byte) (s : State) : OnlyLinkAndOutput bs s ((link s).emit bs) := by
  refine ⟨by simp, fun r hr => by simp [hr], rfl, rfl, fun _ => rfl, ⟨rfl, rfl, rfl, rfl, rfl⟩, rfl, rfl, rfl⟩

/-- The frame of the fatal path. -/
theorem fatalFrom_raiseFatal (k : FatalKind) (s : State) : FatalFrom k s (raiseFatal k s) :=
  ⟨rfl, rfl, rfl, rfl, fun _ => rfl, rfl, rfl, rfl, rfl, rfl, rfl⟩

/-- The walk finds a string that stands in plain memory. -/
theorem stringWords_of_stringAt {s : State} {a : Word} {ws : List Word} (h : StringAt s a ws) :
    stringWords s a = some ws := by
  induction ws generalizing a with
  | nil =>
    rw [stringWords_eq]
    obtain ⟨h1, h2⟩ := h
    unfold IsDevice at h1
    simp [h1, h2]
  | cons w ws ih =>
    rw [stringWords_eq]
    obtain ⟨h1, h2, h3, h4⟩ := h
    unfold IsDevice at h1
    rw [ih h4]
    simp [h1, h2, h3]

/-- The walk finds nothing where a device word comes before the terminator. -/
theorem stringWords_of_stringBlocked {s : State} {a : Word} {ws : List Word} (h : StringBlocked s a ws) :
    stringWords s a = none := by
  induction ws generalizing a with
  | nil =>
    rw [stringWords_eq]
    simp only [StringBlocked, IsDevice] at h
    simp [h]
  | cons w ws ih =>
    rw [stringWords_eq]
    obtain ⟨h1, h2, h3, h4⟩ := h
    rw [ih h4]
    simp [h2, h3]

/-- The string that a service walks is the one that R0 named before the link. -/
theorem stringWords_link (s : State) : stringWords (link s) ((link s).reg 0#3) = stringWords s (s.reg 0#3) := by
  rw [reg_link, if_neg (by decide)]
  rfl

theorem lowByte_eq (w : Word) : lowByte w = BitVec.ofNat 8 (w.toNat % 256) := by
  apply BitVec.eq_of_toNat_eq
  simp [lowByte]

theorem highByte_eq (w : Word) : highByte w = BitVec.ofNat 8 (w.toNat / 256) := by
  apply BitVec.eq_of_toNat_eq
  simp [highByte, Nat.shiftRight_eq_div_pow]

/-- Vectors outside the dispatcher's table (43_trap.md R128). -/
theorem dispatchTrap_unknown {v : BitVec 8} (h : v.toNat < 0x20 ∨ 0x25 < v.toNat) (s : State) :
    dispatchTrap v s = unknownVector s := by
  unfold dispatchTrap
  have e : ∀ k : BitVec 8, 0x20 ≤ k.toNat → k.toNat ≤ 0x25 → v ≠ k := by
    rintro k h1 h2 rfl
    omega
  rw [if_neg (e _ (by decide) (by decide)), if_neg (e _ (by decide) (by decide)), if_neg (e _ (by decide) (by decide)),
    if_neg (e _ (by decide) (by decide)), if_neg (e _ (by decide) (by decide)), if_neg (e _ (by decide) (by decide))]

/-- An intercepted read does not look at COND (10_state.md R26). -/
theorem intercept_setCond (s : State) (c : Cond) (a : Word) : intercept (s.setCond c) a = (intercept s a).setCond c := by
  unfold intercept
  rw [State.cfg_setCond]
  split
  · rcases kbsrPoll_cases s with ⟨b, rest, h1, h2, h3⟩ | ⟨h1, h2⟩
    · rw [h3]
      have := kbPoll_pending (s := s.setCond c) h1 h2
      simp only [kbsrPoll, this]
      rfl
    · rw [h2]
      have := kbPoll_idle (s := s.setCond c) h1
      simp only [kbsrPoll, this]
      rfl
  · rfl

end Sys2Proof.Machine
end

