-- ==== Sys2Proof/Laws/PerInstr.lean ====
section
/-! SUPPORT. Statements made per instruction. `OpcodeField`: an instruction's word carries its opcode's code in bits [15:12]
(spec/30_encoding.md R61, R62), whatever the opcode map. -/

namespace Sys2Proof.Laws.OpcodeField

open Sys2Proof

/-- Bits [15:12] of the word of i are the code of i's opcode. -/
def Statement (i : Instr) : Prop := ∀ m : OpcodeMap, field (encode m i) 12 4 = codeOf m i.opcode

theorem addReg (dr sr1 sr2 : RegIdx) : Statement (.addReg dr sr1 sr2) := fun _ => field_join_high _ _

theorem addImm (dr sr1 : RegIdx) (imm5 : BitVec 5) : Statement (.addImm dr sr1 imm5) := fun _ => field_join_high _ _

theorem andReg (dr sr1 sr2 : RegIdx) : Statement (.andReg dr sr1 sr2) := fun _ => field_join_high _ _

theorem andImm (dr sr1 : RegIdx) (imm5 : BitVec 5) : Statement (.andImm dr sr1 imm5) := fun _ => field_join_high _ _

theorem not (dr sr : RegIdx) : Statement (.not dr sr) := fun _ => field_join_high _ _

theorem br (n z p : Bool) (pcOffset9 : BitVec 9) : Statement (.br n z p pcOffset9) := fun _ => field_join_high _ _

theorem jmp (baseR : RegIdx) : Statement (.jmp baseR) := fun _ => field_join_high _ _

theorem ret : Statement .ret := fun _ => field_join_high _ _

theorem jsr (pcOffset11 : BitVec 11) : Statement (.jsr pcOffset11) := fun _ => field_join_high _ _

theorem jsrr (baseR : RegIdx) : Statement (.jsrr baseR) := fun _ => field_join_high _ _

theorem ld (dr : RegIdx) (pcOffset9 : BitVec 9) : Statement (.ld dr pcOffset9) := fun _ => field_join_high _ _

theorem ldi (dr : RegIdx) (pcOffset9 : BitVec 9) : Statement (.ldi dr pcOffset9) := fun _ => field_join_high _ _

theorem ldr (dr baseR : RegIdx) (offset6 : BitVec 6) : Statement (.ldr dr baseR offset6) := fun _ => field_join_high _ _

theorem lea (dr : RegIdx) (pcOffset9 : BitVec 9) : Statement (.lea dr pcOffset9) := fun _ => field_join_high _ _

theorem st (sr : RegIdx) (pcOffset9 : BitVec 9) : Statement (.st sr pcOffset9) := fun _ => field_join_high _ _

theorem sti (sr : RegIdx) (pcOffset9 : BitVec 9) : Statement (.sti sr pcOffset9) := fun _ => field_join_high _ _

theorem str (sr baseR : RegIdx) (offset6 : BitVec 6) : Statement (.str sr baseR offset6) := fun _ => field_join_high _ _

theorem trap (trapvect8 : BitVec 8) : Statement (.trap trapvect8) := fun _ => field_join_high _ _

theorem getc : Statement .getc := fun _ => field_join_high _ _

theorem out : Statement .out := fun _ => field_join_high _ _

theorem puts : Statement .puts := fun _ => field_join_high _ _

theorem inp : Statement .inp := fun _ => field_join_high _ _

theorem putsp : Statement .putsp := fun _ => field_join_high _ _

theorem halt : Statement .halt := fun _ => field_join_high _ _

theorem rti : Statement .rti := fun _ => field_join_high _ _

theorem reserved : Statement .reserved := fun _ => field_join_high _ _

end Sys2Proof.Laws.OpcodeField
end

