-- ==== Sys2Proof/Laws/Runs.lean ====
section
/-! SUPPORT. Runs of events, finite and endless (spec/60_exceptions.md R154, R163). -/

namespace Sys2Proof.Machine

/-- A run of two parts is the second part run from where the first ends. -/
theorem runEvents_append {es fs : List Event} {s t : State} (h : runEvents es s = .next t) :
    runEvents (es ++ fs) s = runEvents fs t := by
  induction es generalizing s with
  | nil => cases h; rfl
  | cons e es ih =>
    simp only [List.cons_append, runEvents] at h ⊢
    split at h
    · exact ih h
    · cases h
    · cases h

/-- The states of an endless run are those its finite beginnings end in. -/
theorem EndlessRun.runEvents_range {s : State} {e : Nat → Event} {t : Nat → State} (h : EndlessRun s e t) (n : Nat) :
    runEvents ((List.range n).map e) s = .next (t n) := by
  induction n with
  | zero => rw [h.1]; rfl
  | succ n ih =>
    rw [List.range_succ, List.map_append, runEvents_append ih]
    simp [runEvents, (h.2 n).2]

/-- Every finite beginning of a diverging run answers a running state: none of R163's other outcomes ends it. -/
theorem Diverging.runEvents_range {s : State} {e : Nat → Event} (h : Diverging s e) (n : Nat) :
    ∃ t, runEvents ((List.range n).map e) s = .next t ∧ t.running = true := by
  obtain ⟨t, ht, _⟩ := h
  exact ⟨t n, ht.runEvents_range n, (ht.2 n).1⟩

/-- A stopped core does not diverge. -/
theorem not_diverging_of_stopped {s : State} (h : s.running = false) (e : Nat → Event) : ¬ Diverging s e := by
  rintro ⟨t, ⟨h0, ht⟩, _⟩
  have := (ht 0).1
  rw [h0, h] at this
  cases this

/-- COINDUCTION: the core diverges from every state of a set whose states are enabled and step into the set. -/
theorem diverging_of_closed {P : State → Prop} (hP : ∀ s, P s → s.Enabled ∧ ∃ t, step s = .next t ∧ P t) {s : State} (hs : P s) :
    Diverging s (fun _ => .step) := by
  choose! f hf using fun s (h : P s) => (hP s h).2
  have hn : ∀ n, P (f^[n] s) := by
    intro n
    induction n with
    | zero => exact hs
    | succ n ih => rw [Function.iterate_succ_apply']; exact (hf _ ih).2
  refine ⟨fun n => f^[n] s, ⟨rfl, fun n => ⟨?_, ?_⟩⟩, fun n => ⟨n, Nat.le_refl n, rfl, (hP _ (hn n)).1⟩⟩
  · have := (hP _ (hn n)).1
    by_contra hr
    simp only [State.Enabled, State.status, hr] at this
    split at this
    · contradiction
    · split at this <;> cases this
  · simp only [Function.iterate_succ_apply']
    exact (hf _ (hn n)).1

/-- A run of steps from a state that steps to itself stays there. -/
theorem EndlessRun.fixed {s : State} {t : Nat → State} (h : EndlessRun s (fun _ => .step) t) (hs : step s = .next s) (n : Nat) :
    t n = s := by
  induction n with
  | zero => exact h.1
  | succ n ih =>
    have := (h.2 n).2
    rw [ih] at this
    simp only [transition, hs, Host.Outcome.next.injEq] at this
    exact this.symm

end Sys2Proof.Machine
end

