-- ==== Sys2Proof/Tests/Slice0.lean ====
section
/-! SUPPORT. Tests of one step each, with expected results from spec/95_test_vectors.md (S and V numbers) or from the examples of spec/40 to 44,
the well-formedness smoke test, decoder tests with words written out from spec/30_encoding.md R62, and for each statement with
hypotheses a witness that meets them. -/

namespace Sys2Proof.Tests

open Sys2Proof Sys2Proof.Machine

/-! ## Helpers -/

/-- The reset state running at pc, with the cells given stored. -/
def bench (pc : Word) (cells : List (Word × Word)) : State :=
  ((cells.foldl (fun s c => s.setWord c.1 c.2) State.reset).setPc pc).setRun true .none

/-- What f sees of an outcome's next state. -/
def seen {α : Type} (f : State → α) : Result → Option α
  | .next s => some (f s)
  | _ => none

/-- The refusal of an outcome. -/
def refusalOf : Result → Option Refusal
  | .refused r => some r
  | _ => none

/-! ## Well-formedness: the ill-formed terms are refused -/

theorem test_wf_ok : (Instr.jmp 6#3).wf = true ∧ (Instr.trap 0x1F#8).wf = true ∧ (Instr.trap 0x26#8).wf = true ∧
    Instr.ret.wf = true ∧ Instr.getc.wf = true := by decide

theorem test_wf_jmp_r7_refused : (Instr.jmp 7#3).wf = false := by decide

theorem test_wf_named_vectors_refused : (Instr.trap 0x20#8).wf = false ∧ (Instr.trap 0x21#8).wf = false ∧
    (Instr.trap 0x22#8).wf = false ∧ (Instr.trap 0x23#8).wf = false ∧ (Instr.trap 0x24#8).wf = false ∧
    (Instr.trap 0x25#8).wf = false := by decide

/-- A map that names an opcode twice is refused, and so are equal device addresses. -/
theorem test_wf_config : OpcodeMap.wf lc3OpcodeMap = true ∧ OpcodeMap.wf (lc3OpcodeMap.set 8 .br) = false ∧ defaultConfig.wf = true ∧
    { defaultConfig with kbdrAddr := 0xFE00#16 }.wf = false := by decide

/-! ## Decoding: words written out field by field (30_encoding.md R62), unused bits included -/

theorem test_decode_addReg : decode lc3OpcodeMap 0b0001_011_001_0_00_010#16 = .addReg 3#3 1#3 2#3 := by decide
theorem test_decode_addReg_unused : decode lc3OpcodeMap 0b0001_011_001_0_11_010#16 = .addReg 3#3 1#3 2#3 := by decide
theorem test_decode_addImm : decode lc3OpcodeMap 0b0001_010_000_1_11111#16 = .addImm 2#3 0#3 0b11111#5 := by decide
theorem test_decode_andReg : decode lc3OpcodeMap 0b0101_001_010_0_00_011#16 = .andReg 1#3 2#3 3#3 := by decide
theorem test_decode_andImm : decode lc3OpcodeMap 0b0101_001_010_1_01111#16 = .andImm 1#3 2#3 15#5 := by decide
theorem test_decode_not : decode lc3OpcodeMap 0b1001_100_101_111111#16 = .not 4#3 5#3 := by decide
theorem test_decode_br : decode lc3OpcodeMap 0b0000_1_0_1_000000011#16 = .br true false true 3#9 := by decide
theorem test_decode_jmp : decode lc3OpcodeMap 0b1100_000_010_000000#16 = .jmp 2#3 := by decide
theorem test_decode_ret : decode lc3OpcodeMap 0b1100_000_111_000000#16 = .ret := by decide
theorem test_decode_jsr : decode lc3OpcodeMap 0b0100_1_10000000000#16 = .jsr 0b10000000000#11 := by decide
theorem test_decode_jsrr : decode lc3OpcodeMap 0b0100_0_00_011_000000#16 = .jsrr 3#3 := by decide
theorem test_decode_ld : decode lc3OpcodeMap 0b0010_001_000000101#16 = .ld 1#3 5#9 := by decide
theorem test_decode_ldi : decode lc3OpcodeMap 0b1010_000_111111111#16 = .ldi 0#3 0b111111111#9 := by decide
theorem test_decode_ldr : decode lc3OpcodeMap 0b0110_001_010_111111#16 = .ldr 1#3 2#3 0b111111#6 := by decide
theorem test_decode_lea : decode lc3OpcodeMap 0b1110_011_111111110#16 = .lea 3#3 0b111111110#9 := by decide
theorem test_decode_st : decode lc3OpcodeMap 0b0011_010_000000001#16 = .st 2#3 1#9 := by decide
theorem test_decode_sti : decode lc3OpcodeMap 0b1011_100_000000001#16 = .sti 4#3 1#9 := by decide
theorem test_decode_str : decode lc3OpcodeMap 0b0111_011_100_011111#16 = .str 3#3 4#3 31#6 := by decide
theorem test_decode_trap : decode lc3OpcodeMap 0b1111_0000_00100110#16 = .trap 0x26#8 ∧
    decode lc3OpcodeMap 0b1111_0000_00011111#16 = .trap 0x1F#8 := by decide
theorem test_decode_services : decode lc3OpcodeMap 0b1111_0000_00100000#16 = .getc ∧ decode lc3OpcodeMap 0b1111_0000_00100001#16 = .out ∧
    decode lc3OpcodeMap 0b1111_0000_00100010#16 = .puts ∧ decode lc3OpcodeMap 0b1111_0000_00100011#16 = .inp ∧
    decode lc3OpcodeMap 0b1111_0000_00100100#16 = .putsp ∧ decode lc3OpcodeMap 0b1111_1111_00100101#16 = .halt := by decide
theorem test_decode_rti : decode lc3OpcodeMap 0b1000_111111111111#16 = .rti := by decide
theorem test_decode_reserved : decode lc3OpcodeMap 0b1101_000100100011#16 = .reserved := by decide

/-- The words of spec/40 to 44's examples, assembled. -/
theorem test_encode : encode lc3OpcodeMap (.addImm 2#3 0#3 0b11111#5) = 0x143F#16 ∧ encode lc3OpcodeMap (.not 4#3 5#3) = 0x997F#16 ∧
    encode lc3OpcodeMap (.br false true false 3#9) = 0x0403#16 ∧ encode lc3OpcodeMap .ret = 0xC1C0#16 ∧
    encode lc3OpcodeMap (.jsr 16#11) = 0x4810#16 ∧ encode lc3OpcodeMap (.ldr 1#3 2#3 0b111111#6) = 0x62BF#16 ∧
    encode lc3OpcodeMap .halt = 0xF025#16 := by decide

/-- A permuted map permutes the opcodes and nothing else. -/
theorem test_decode_other_map :
    decode ((lc3OpcodeMap.set 1 .and).set 5 .add) 0x5642#16 = .addReg 3#3 1#3 2#3 := by decide

theorem test_decodeTableWord : decodeTableWord 16 0x1020 = some (.addImm 0#3 0#3 0#5) ∧ decodeTableWord 16 0xC1C0 = some .ret ∧
    decodeTableWord 16 0xF025 = some .halt ∧ decodeTableWord 32 0 = none := by decide

/-- A word placed for the fetch is fetched, also where the pc stands at the polled address. -/
theorem test_withFetchWord : (fetch (State.reset.withFetchWord 16 0xE7FE)).instr = 0xE7FE#16 ∧
    (fetch ((State.reset.setPc 0xFE00#16).withFetchWord 16 0xE7FE)).instr = 0xE7FE#16 := by decide

/-! ## Operands and flags (S1, S2, 00_scope.md R10) -/

theorem test_sext : sext 0b10000#5 = 0xFFF0#16 ∧ sext 0b011111#6 = 0x001F#16 ∧ sext 0x100#9 = 0xFF00#16 ∧ sext 0x400#11 = 0xFC00#16 ∧
    sext 1#1 = 0xFFFF#16 ∧ sext 0x8000#16 = 0x8000#16 := by decide

theorem test_setcc : condOf 0x0000#16 = .z ∧ condOf 0x0001#16 = .p ∧ condOf 0x7FFF#16 = .p ∧ condOf 0x8000#16 = .n ∧
    condOf 0xFFFF#16 = .n := by decide

theorem test_swapByteOrder : swapByteOrder 0x1234#16 = 0x3412#16 := by decide

/-! ## One step per test -/

/-- S3. -/
theorem test_add_imm : seen (fun t => (t.reg 2#3, t.pc, t.cond)) (step ((bench 0x3000#16 [(0x3000#16, 0x143F#16)]).setReg 0#3 5#16)) =
    some (4#16, 0x3001#16, .p) := by decide

/-- V5. -/
theorem test_add_imm_min : seen (fun t => (t.reg 1#3, t.cond)) (step ((bench 0x3000#16 [(0x3000#16, 0x1270#16)]).setReg 1#3 0x10#16)) =
    some (0#16, .z) := by decide

/-- V2. -/
theorem test_add_overflow : seen (fun t => (t.reg 3#3, t.cond))
    (step (((bench 0x3000#16 [(0x3000#16, 0x1642#16)]).setReg 1#3 0x7FFF#16).setReg 2#3 1#16)) = some (0x8000#16, .n) := by decide

/-- V7. -/
theorem test_add_same_register : seen (fun t => (t.reg 0#3, t.cond))
    (step ((bench 0x3000#16 [(0x3000#16, 0x1000#16)]).setReg 0#3 0x4000#16)) = some (0x8000#16, .n) := by decide

/-- V9. -/
theorem test_and : seen (fun t => (t.reg 1#3, t.cond))
    (step (((bench 0x3000#16 [(0x3000#16, 0x5283#16)]).setReg 2#3 0xF0F0#16).setReg 3#3 0xFF00#16)) = some (0xF000#16, .n) := by decide

/-- V10 and V11. -/
theorem test_and_imm : seen (fun t => (t.reg 5#3, t.cond))
      (step ((bench 0x3000#16 [(0x3000#16, 0x5B7F#16)]).setReg 5#3 0x8001#16)) = some (0x8001#16, .n) ∧
    seen (fun t => (t.reg 1#3, t.cond)) (step ((bench 0x3000#16 [(0x3000#16, 0x52AF#16)]).setReg 2#3 0xABCD#16)) =
      some (0x000D#16, .p) := by decide

/-- V12. -/
theorem test_not : seen (fun t => (t.reg 4#3, t.cond)) (step ((bench 0x3000#16 [(0x3000#16, 0x997F#16)]).setReg 5#3 0x00FF#16)) =
    some (0xFF00#16, .n) := by decide

/-- V15. -/
theorem test_not_same_register : seen (fun t => (t.reg 2#3, t.cond)) (step (bench 0x3000#16 [(0x3000#16, 0x9480#16)])) =
    some (0xFFFF#16, .n) := by decide

/-- S5. -/
theorem test_br : seen (·.pc) (step (bench 0x3000#16 [(0x3000#16, 0x0403#16)])) = some 0x3004#16 ∧
    seen (·.pc) (step (bench 0x3000#16 [(0x3000#16, 0x0A03#16)])) = some 0x3001#16 := by decide

/-- V24 and V33. -/
theorem test_br_wraps : seen (·.pc) (step (bench 0x0010#16 [(0x0010#16, 0x0F00#16)])) = some 0xFF11#16 ∧
    seen (·.pc) (step (bench 0xFFFF#16 [])) = some 0x0000#16 := by decide

/-- V26. -/
theorem test_jmp : seen (fun t => (t.pc, t.reg 7#3)) (step ((bench 0x3000#16 [(0x3000#16, 0xC080#16)]).setReg 2#3 0x4000#16)) =
    some (0x4000#16, 0#16) := by decide

/-- V27. -/
theorem test_ret : seen (·.pc) (step ((bench 0x3000#16 [(0x3000#16, 0xC1C0#16)]).setReg 7#3 0x3456#16)) = some 0x3456#16 := by decide

/-- V28 and V29. -/
theorem test_jsr : seen (fun t => (t.reg 7#3, t.pc)) (step (bench 0x3000#16 [(0x3000#16, 0x4810#16)])) = some (0x3001#16, 0x3011#16) ∧
    seen (fun t => (t.reg 7#3, t.pc)) (step (bench 0x0100#16 [(0x0100#16, 0x4C00#16)])) = some (0x0101#16, 0xFD01#16) := by decide

/-- V30. -/
theorem test_jsrr : seen (fun t => (t.reg 7#3, t.pc)) (step ((bench 0x3000#16 [(0x3000#16, 0x40C0#16)]).setReg 3#3 0x5000#16)) =
    some (0x3001#16, 0x5000#16) := by decide

/-- V31 and V32. -/
theorem test_jsrr_r7 : seen (fun t => (t.reg 7#3, t.pc)) (step ((bench 0x3000#16 [(0x3000#16, 0x41C0#16)]).setReg 7#3 0x5000#16)) =
      some (0x3001#16, 0x3001#16) ∧
    seen (fun t => (t.reg 7#3, t.pc)) (step { (bench 0x3000#16 [(0x3000#16, 0x41C0#16)]).setReg 7#3 0x5000#16 with
      cfg := { defaultConfig with jsrrLinkFirst := false } }) = some (0x3001#16, 0x5000#16) := by decide

/-- V40. -/
theorem test_ld : seen (fun t => (t.reg 1#3, t.cond)) (step (bench 0x3000#16 [(0x3000#16, 0x2205#16), (0x3006#16, 0x8123#16)])) =
    some (0x8123#16, .n) := by decide

/-- S4. -/
theorem test_ldi : seen (fun t => (t.reg 0#3, t.pc, t.cond)) (step (bench 0x2FFF#16
    [(0x2FFF#16, 0xA000#16), (0x3000#16, 0x3001#16), (0x3001#16, 0x3002#16), (0x3002#16, 0x0041#16)])) =
    some (0x3002#16, 0x3000#16, .p) := by decide

/-- V42. -/
theorem test_ldi_own_word : seen (·.reg 0#3) (step (bench 0x3000#16 [(0x3000#16, 0xA1FF#16), (0xA1FF#16, 7#16)])) = some 7#16 := by decide

/-- V45. -/
theorem test_ldr_wraps : seen (fun t => (t.reg 1#3, t.cond)) (step (bench 0x3000#16 [(0x3000#16, 0x62BF#16), (0xFFFF#16, 0xFFFF#16)])) =
    some (0xFFFF#16, .n) := by decide

/-- V44. -/
theorem test_ldr_base_is_destination : seen (·.reg 2#3)
    (step ((bench 0x3000#16 [(0x3000#16, 0x6480#16), (0x4000#16, 0x7777#16)]).setReg 2#3 0x4000#16)) = some 0x7777#16 := by decide

/-- V46. -/
theorem test_lea : seen (fun t => (t.reg 3#3, t.cond)) (step (bench 0x3000#16 [(0x3000#16, 0xE7FE#16)])) = some (0x2FFF#16, .p) := by decide

/-- V64: no poll, so no draw. -/
theorem test_lea_device : seen (fun t => (t.reg 0#3, t.cond, t.draws)) (step (bench 0xFDFF#16 [(0xFDFF#16, 0xE000#16)])) =
    some (0xFE00#16, .n, 0) := by decide

/-- V49. -/
theorem test_st : seen (fun t => (t.word 0x3002#16, t.cond))
    (step (((bench 0x3000#16 [(0x3000#16, 0x3401#16)]).setReg 2#3 0xCAFE#16).setCond .n)) = some (0xCAFE#16, .n) := by decide

/-- V53: the next fetch reads the stored word. -/
theorem test_st_next_instruction : seen (fun t => (fetch t).instr)
    (step ((bench 0x3000#16 [(0x3000#16, 0x3000#16)]).setReg 0#3 0xF025#16)) = some 0xF025#16 := by decide

/-- V50. -/
theorem test_sti : seen (fun t => (t.word 0x4000#16, t.word 0x3002#16))
    (step ((bench 0x3000#16 [(0x3000#16, 0xB801#16), (0x3002#16, 0x4000#16)]).setReg 4#3 0x1234#16)) =
    some (0x1234#16, 0x4000#16) := by decide

/-- V65. -/
theorem test_sti_device : seen (fun t => (t.word 0xFE00#16, t.draws))
    (step ((bench 0x3000#16 [(0x3000#16, 0xB001#16), (0x3002#16, 0xFE00#16)]).setReg 0#3 0x55#16)) = some (0x55#16, 0) := by decide

/-- V51. -/
theorem test_str_wraps : seen (·.word 0x000F#16)
    (step (((bench 0x3000#16 [(0x3000#16, 0x771F#16)]).setReg 3#3 0x5555#16).setReg 4#3 0xFFF0#16)) = some 0x5555#16 := by decide

/-- V52. -/
theorem test_str_base_is_source : seen (·.word 0x4000#16)
    (step ((bench 0x3000#16 [(0x3000#16, 0x7900#16)]).setReg 4#3 0x4000#16)) = some 0x4000#16 := by decide

/-! ## The keyboard words -/

/-- The LDI of V60 and V61, with the byte A at the front of the input. -/
def keyboardBench : State := (bench 0x3000#16 [(0x3000#16, 0xA001#16), (0x3002#16, 0xFE00#16)]).setInput [0x41#8]

/-- The poll of a state with input [A] whose next draw says pending. -/
theorem poll_pending {s : State} (hi : s.input = [0x41#8]) (hk : Config.keyPending s.draws = true) :
    kbPoll s = (some 0x41#8, (s.setInput []).drawn) := kbPoll_pending hi hk

/-- V61, with the host's draw as the hypothesis. -/
theorem test_poll_pending (hk : Config.keyPending 0 = true) :
    memRead keyboardBench 0xFE00#16 = (0x8000#16,
      ((keyboardBench.setInput []).drawn.setWord 0xFE00#16 0x8000#16).setWord 0xFE02#16 0x0041#16) := by
  have h := poll_pending (s := keyboardBench) rfl hk
  have e : intercept keyboardBench 0xFE00#16 =
      ((keyboardBench.setInput []).drawn.setWord 0xFE00#16 0x8000#16).setWord 0xFE02#16 0x0041#16 := by
    simp only [intercept, kbsrPoll, h]
    decide
  simp only [memRead, e]
  decide

/-- V60: no byte supplied, nothing pending. -/
theorem test_poll_idle : seen (fun t => (t.reg 0#3, t.cond, t.word 0xFE00#16)) (step (keyboardBench.setInput [])) =
    some (0#16, .z, 0#16) := by decide

/-- V62: the data word is read without a poll. -/
theorem test_data_word : seen (fun t => (t.reg 0#3, t.draws))
    (step ((bench 0x3000#16 [(0x3000#16, 0x6040#16), (0xFE02#16, 0x41#16)]).setReg 1#3 0xFE02#16)) = some (0x41#16, 0) := by decide

/-- V68: a fetch polls. -/
theorem test_fetch_polls : seen (fun t => (t.pc, t.running, t.draws)) (step (bench 0xFE00#16 [(0xFE00#16, 0x1234#16)])) =
    some (0xFE01#16, true, 1) := by decide

/-! ## TRAP and the services -/

/-- V71. -/
theorem test_getc_waits : seen (fun t => (t.reg 0#3, t.reg 7#3, t.pc, t.phase))
    (step ((bench 0x3000#16 [(0x3000#16, 0xF020#16)]).setReg 0#3 0xFFFF#16)) =
    some (0xFFFF#16, 0x3001#16, 0x3001#16, .waitIn .getc) := by decide

/-- V70 and V72, second transition. -/
theorem test_getc_delivers :
    seen (fun t => (t.reg 0#3, t.cond, t.output, t.phase))
      (step ((((bench 0x3001#16 []).setCond .n).setInput [0x41#8]).setPhase (.waitIn .getc))) = some (0x41#16, .n, [], .idle) ∧
    seen (fun t => (t.reg 0#3, t.cond)) (step { (((bench 0x3001#16 []).setCond .n).setInput [0x41#8]).setPhase (.waitIn .getc) with
      cfg := { defaultConfig with trapInputSetsCond := true } }) = some (0x41#16, .p) := by decide

/-- V73. -/
theorem test_out : seen (fun t => (t.output, t.reg 7#3, t.pc)) (step ((bench 0x3000#16 [(0x3000#16, 0xF021#16)]).setReg 0#3 0x1241#16)) =
    some ([0x41#8], 0x3001#16, 0x3001#16) := by decide

/-- V76's string: it wraps from 0xFFFF to 0x0000. -/
def wrapBench (instr : Word) : State :=
  (bench 0x3000#16 [(0x3000#16, instr), (0xFFFF#16, 0x0041#16), (0x0000#16, 0x0042#16)]).setReg 0#3 0xFFFF#16

/-- V77's string: it reaches `KBSR_ADDR`. -/
def blockedBench (instr : Word) : State :=
  (bench 0x3000#16 [(0x3000#16, instr), (0xFDFF#16, 0x0041#16), (0xFE00#16, 0x0042#16)]).setReg 0#3 0xFDFF#16

/-- V76. -/
theorem test_puts_wraps : seen (fun t => (t.output, t.reg 7#3)) (step (wrapBench 0xF022#16)) =
    some ([0x41#8, 0x42#8], 0x3001#16) := by decide

/-- V77. -/
theorem test_puts_refused : refusalOf (step (blockedBench 0xF022#16)) = some .stringReachesDevice := by decide

/-- V79. -/
theorem test_in_prompts : seen (fun t => (t.output, t.phase)) (step { bench 0x3000#16 [(0x3000#16, 0xF023#16)] with
    cfg := { defaultConfig with inPrompt := [0x3E#8, 0x20#8] } }) = some ([0x3E#8, 0x20#8], .waitIn .inp) := by decide

/-- V78, second transition. -/
theorem test_in_delivers : seen (fun t => (t.reg 0#3, t.output, t.phase))
    (step (((bench 0x3001#16 []).setInput [0x78#8]).setPhase (.waitIn .inp))) = some (0x78#16, [0x78#8], .idle) := by decide

/-- V80. -/
theorem test_putsp : seen (·.output) (step ((bench 0x3000#16
    [(0x3000#16, 0xF024#16), (0x4000#16, 0x6948#16), (0x4001#16, 0x0021#16)]).setReg 0#3 0x4000#16)) =
    some [0x48#8, 0x69#8, 0x21#8] := by decide

/-- V81. -/
theorem test_putsp_zero_low_byte : seen (·.output) (step ((bench 0x3000#16
    [(0x3000#16, 0xF024#16), (0x4000#16, 0x4100#16)]).setReg 0#3 0x4000#16)) = some [0x00#8, 0x41#8] := by decide

/-- V82: nothing is expected of PC. -/
theorem test_halt : seen (fun t => (t.reg 7#3, t.running, t.stopCause, t.output)) (step { bench 0x3000#16 [(0x3000#16, 0xF025#16)] with
    cfg := { defaultConfig with haltBanner := [0x48#8] } }) = some (0x3001#16, false, .halt, [0x48#8]) := by decide

/-- V84 and V85. -/
theorem test_trap_unknown : seen (fun t => (t.reg 7#3, t.pc, t.running, t.stopCause)) (step (bench 0x3000#16 [(0x3000#16, 0xF026#16)])) =
      some (0x3001#16, 0x3001#16, false, .fatal .unknownTrapVector 0xF026#16 0x3000#16) ∧
    seen (·.stopCause) (step (bench 0x3000#16 [(0x3000#16, 0xF000#16)])) =
      some (.fatal .unknownTrapVector 0xF000#16 0x3000#16) := by decide

/-- S8a. -/
theorem test_rti : seen (fun t => (t.running, t.stopCause, t.pc, t.cond)) (step (bench 0x3000#16 [(0x3000#16, 0x8000#16)])) =
    some (false, .fatal .unimplementedOpcode 0x8000#16 0x3000#16, 0x3001#16, .z) := by decide

/-- V102. -/
theorem test_reserved : seen (fun t => (t.running, t.stopCause, t.pc)) (step (bench 0xFFFF#16 [(0xFFFF#16, 0xDFFF#16)])) =
    some (false, .fatal .unimplementedOpcode 0xDFFF#16 0xFFFF#16, 0x0000#16) := by decide

/-! ## The host -/

/-- V90: the stop request while GETC waits. -/
theorem test_stop_waiting : seen (fun t => (t.running, t.stopCause, t.phase, t.reg 0#3))
    (hostMove .stop (((bench 0x3001#16 []).setReg 0#3 0xFFFF#16).setPhase (.waitIn .getc))) =
    some (false, .hostStop, .idle, 0xFFFF#16) := by decide

/-- V92 and V93. -/
theorem test_start : seen (fun t => (t.running, t.stopCause)) (hostMove .start (State.reset.setRun false .hostStop)) = some (true, .none) ∧
    refusalOf (hostMove .start (State.reset.setRun false (.fatal .unimplementedOpcode 0x8000#16 0x3000#16))) =
      some .hostCannotResume := by decide

/-- V94. -/
theorem test_host_write : seen (hostReadValue 0x3000#16) (hostMove (.write 0x3000#16 0x1234#16) State.reset) = some 0x1234#16 := by decide

/-- V95. -/
theorem test_stopped_step : seen (· == State.reset) (step State.reset) = some true := by decide

/-- 20_memory.md R52. -/
theorem test_load : seen (fun t => (t.word 0x3000#16, t.word 0x3001#16)) (hostLoad 0x3000#16 [0x5020#16, 0xF025#16] State.reset) =
    some (0x5020#16, 0xF025#16) := by decide

/-! ## Witnesses: the hypotheses of the statements can be met -/

/-- DecodeOfEncode, at the boundaries of the unnamed vectors. -/
theorem witness_DecodeOfEncode : lc3OpcodeMap.wf = true ∧ (Instr.trap 0x1F#8).wf = true ∧ (Instr.trap 0x26#8).wf = true ∧
    (Instr.jmp 6#3).wf = true ∧ (Instr.ldr 7#3 7#3 0b111111#6).wf = true := by decide

/-- EncodeOfDecodeOnUsedBits, under two maps. -/
theorem witness_EncodeOfDecodeOnUsedBits : lc3OpcodeMap.wf = true ∧ OpcodeMap.wf ((lc3OpcodeMap.set 1 .and).set 5 .add) = true := by decide

/-- UnusedBitsIgnored: V6's word and V1's. -/
theorem witness_UnusedBitsIgnored : field 0x165A#16 12 4 = field 0x1642#16 12 4 ∧
    field 0x165A#16 0 12 &&& usedBits (decode lc3OpcodeMap 0x1642#16) =
      field 0x1642#16 0 12 &&& usedBits (decode lc3OpcodeMap 0x1642#16) ∧ (0x165A#16 : Word) ≠ 0x1642#16 := by decide

/-- ExtensionFillsHighBits: the bounds of the width and of the bit, and both sides of the field's end. -/
theorem witness_ExtensionFillsHighBits : (1 ≤ 1 ∧ 1 ≤ 16 ∧ 0 < 16) ∧ (1 ≤ 16 ∧ 16 ≤ 16 ∧ 15 < 16) ∧
    (sext 0b10000#5).getLsbD 4 = true ∧ (sext 0b10000#5).getLsbD 5 = true ∧ (zext 0xFF#8).getLsbD 7 = true ∧
    (zext 0xFF#8).getLsbD 8 = false := by decide

/-- EffectiveAddressesWrap: a string at the top of memory. -/
theorem witness_EffectiveAddressesWrap : ¬ IsDevice (wrapBench 0xF022#16) 0xFFFF#16 ∧ (wrapBench 0xF022#16).word 0xFFFF#16 ≠ 0x0000#16 := by
  unfold IsDevice
  decide

/-- The decode clauses of the instruction statements: each name is selected by some word, JSR's with both values of bit 11 and TRAP's
with vectors of each clause. -/
theorem witness_decode_clauses :
    opcodeAt lc3OpcodeMap (field 0x1642#16 12 4) = .add ∧ opcodeAt lc3OpcodeMap (field 0x5283#16 12 4) = .and ∧
    opcodeAt lc3OpcodeMap (field 0x997F#16 12 4) = .not ∧ opcodeAt lc3OpcodeMap (field 0x0403#16 12 4) = .br ∧
    opcodeAt lc3OpcodeMap (field 0xC1C0#16 12 4) = .jmp ∧
    (opcodeAt lc3OpcodeMap (field 0x4810#16 12 4) = .jsr ∧ bit 0x4810#16 11 = true) ∧
    (opcodeAt lc3OpcodeMap (field 0x40C0#16 12 4) = .jsr ∧ bit 0x40C0#16 11 = false) ∧
    opcodeAt lc3OpcodeMap (field 0x2205#16 12 4) = .ld ∧ opcodeAt lc3OpcodeMap (field 0xA003#16 12 4) = .ldi ∧
    opcodeAt lc3OpcodeMap (field 0x62BF#16 12 4) = .ldr ∧ opcodeAt lc3OpcodeMap (field 0xE7FE#16 12 4) = .lea ∧
    opcodeAt lc3OpcodeMap (field 0x3401#16 12 4) = .st ∧ opcodeAt lc3OpcodeMap (field 0xB801#16 12 4) = .sti ∧
    opcodeAt lc3OpcodeMap (field 0x771F#16 12 4) = .str ∧ opcodeAt lc3OpcodeMap (field 0x8000#16 12 4) = .rti ∧
    opcodeAt lc3OpcodeMap (field 0xD000#16 12 4) = .reserved ∧
    (opcodeAt lc3OpcodeMap (field 0xF021#16 12 4) = .trap ∧ field 0xF021#16 0 8 = 0x21#8) ∧
    ((field 0xF020#16 0 8).toNat = 0x20 ∧ (field 0xF021#16 0 8).toNat = 0x21 ∧ (field 0xF022#16 0 8).toNat = 0x22 ∧
      (field 0xF023#16 0 8).toNat = 0x23 ∧ (field 0xF024#16 0 8).toNat = 0x24 ∧ (field 0xFF25#16 0 8).toNat = 0x25) ∧
    (opcodeAt lc3OpcodeMap (field 0xF01F#16 12 4) = .trap ∧ (field 0xF01F#16 0 8).toNat < 0x20) ∧
    (opcodeAt lc3OpcodeMap (field 0xF026#16 12 4) = .trap ∧ 0x25 < (field 0xF026#16 0 8).toNat) := by decide

/-- WaitingHoldsBranchLoopDiverges, the branch to itself: V22 with COND = P, and the same word where only Z is named and set. -/
theorem witness_branch_to_itself :
    (bench 0x3000#16 [(0x3000#16, 0x0FFF#16)]).running = true ∧ (bench 0x3000#16 [(0x3000#16, 0x0FFF#16)]).phase = .idle ∧
    (bench 0x3000#16 [(0x3000#16, 0x0FFF#16)]).pc ≠ 0xFE00#16 ∧
    decode lc3OpcodeMap ((bench 0x3000#16 [(0x3000#16, 0x0FFF#16)]).word 0x3000#16) = .br true true true 0x1FF#9 ∧
    ((bench 0x3000#16 [(0x3000#16, 0x0FFF#16)]).setCond .p).cond = .p ∧
    decode lc3OpcodeMap ((bench 0xFFFF#16 [(0xFFFF#16, 0x05FF#16)]).word 0xFFFF#16) = .br false true false 0x1FF#9 ∧
    (bench 0xFFFF#16 [(0xFFFF#16, 0x05FF#16)]).cond = .z := by decide

/-- The canonical memory of the store, keyboard and frame statements (StStoresPcRelative, StiStoresThroughPointer, StrStoresBaseOffset,
MemWriteStoresEverywhere, StatusReadPollsKeyboard, DataReadReturnsLastLatched), with a non-empty memory, and addresses that differ. -/
theorem witness_wf_memory : State.reset.mem.wf = true ∧ keyboardBench.mem.wf = true ∧ keyboardBench.mem ≠ [] ∧
    keyboardBench.cfg.kbsrAddr ≠ keyboardBench.cfg.kbdrAddr ∧ hostMayUseMemory State.reset = true := by decide

/-- MemReadInterceptsStatusOnly: both clauses. -/
theorem witness_MemReadInterceptsStatusOnly : (0xFDFF#16 : Word) ≠ State.reset.cfg.kbsrAddr ∧
    (0xFE00#16 : Word) = State.reset.cfg.kbsrAddr := by decide

/-- StatusReadPollsKeyboard and DataReadReturnsLastLatched: a state for each arm of their match but for the host's draw, which is free. -/
theorem witness_keyboard_arms : keyboardBench.input = [0x41#8] ∧ (keyboardBench.setInput []).input = [] := by decide

/-- StoreSeenByNextFetch: a store over the next word for each of ST, STI, STR. -/
theorem witness_StoreSeenByNextFetch :
    (∃ t, exec (.st 0#3 0#9) State.reset = .next t) ∧ storeAddress (.st 0#3 0#9) State.reset = some State.reset.pc ∧
    (∃ t, exec (.sti 0#3 0#9) (bench 0x3000#16 [(0x3000#16, 0x3000#16)]) = .next t) ∧
    storeAddress (.sti 0#3 0#9) (bench 0x3000#16 [(0x3000#16, 0x3000#16)]) = some 0x3000#16 ∧
    (∃ t, exec (.str 0#3 1#3 0#6) (State.reset.setReg 1#3 0x3000#16) = .next t) ∧
    storeAddress (.str 0#3 1#3 0#6) (State.reset.setReg 1#3 0x3000#16) = some 0x3000#16 ∧
    State.reset.mem.wf = true ∧ State.reset.pc ≠ State.reset.cfg.kbsrAddr :=
  ⟨⟨_, rfl⟩, by decide, ⟨_, rfl⟩, by decide, ⟨_, rfl⟩, by decide, by decide, by decide⟩

/-- MemoryChangesOnlyAtStores: a storing and a loading instruction, at an address beside the stored one. -/
theorem witness_MemoryChangesOnlyAtStores : State.reset.mem.wf = true ∧ (∃ t, exec (.st 0#3 0#9) State.reset = .next t) ∧
    storeAddress (.st 0#3 0#9) State.reset ≠ some 0x3001#16 ∧ (∃ t, exec (.ld 0#3 0#9) State.reset = .next t) ∧
    storeAddress (.ld 0#3 0#9) State.reset ≠ some 0x3000#16 ∧ (0x3001#16 : Word) ≠ State.reset.cfg.kbsrAddr ∧
    (0x3001#16 : Word) ≠ State.reset.cfg.kbdrAddr :=
  ⟨by decide, ⟨_, rfl⟩, by decide, ⟨_, rfl⟩, by decide, by decide, by decide⟩

/-- UnknownVectorIsFatal: the ends of both ranges. -/
theorem witness_UnknownVectorIsFatal : (0x00#8).toNat < 0x20 ∧ (0x1F#8).toNat < 0x20 ∧ 0x25 < (0x26#8).toNat ∧
    0x25 < (0xFF#8).toNat := by decide

/-- A service that waits, with and without a byte. -/
def waiting (k : InputService) (input : List Byte) : State :=
  (((bench 0x3001#16 []).setReg 7#3 0x3001#16).setInput input).setPhase (.waitIn k)

/-- GetcWaitsThenDelivers, InPromptsEchoesAndDelivers and WaitingHoldsBranchLoopDiverges. -/
theorem witness_waiting : (waiting .getc [0x41#8]).running = true ∧ (waiting .getc [0x41#8]).phase = .waitIn .getc ∧
    (waiting .getc [0x41#8]).input = [0x41#8] ∧ (waiting .inp [0x00#8]).phase = .waitIn .inp ∧ (waiting .inp [0x00#8]).input = [0x00#8] ∧
    (waiting .inp []).running = true ∧ (waiting .inp []).input = [] ∧ (waiting .inp []).stopCause = .none := by decide

/-- GetcWaitsThenDelivers and InPromptsEchoesAndDelivers: both values of `TRAP_INPUT_SETS_COND`. -/
theorem witness_trapInputSetsCond : (waiting .getc [0x41#8]).cfg.trapInputSetsCond = false ∧
    { waiting .getc [0x41#8] with cfg := { defaultConfig with trapInputSetsCond := true } }.cfg.trapInputSetsCond = true := by decide

/-- PutsEmitsLowBytes and PutspEmitsPackedBytes: a string that wraps, and the empty one. -/
theorem witness_StringAt : StringAt (wrapBench 0xF022#16) ((wrapBench 0xF022#16).reg 0#3) [0x0041#16, 0x0042#16] ∧
    StringAt State.reset (State.reset.reg 0#3) [] := by
  simp only [StringAt, IsDevice]
  decide

/-- StringAtDeviceRefused: a string that reaches `KBSR_ADDR`, and ones that start at either device word. -/
theorem witness_StringBlocked : StringBlocked (blockedBench 0xF022#16) ((blockedBench 0xF022#16).reg 0#3) [0x0041#16] ∧
    StringBlocked (State.reset.setReg 0#3 0xFE00#16) 0xFE00#16 [] ∧ StringBlocked (State.reset.setReg 0#3 0xFE02#16) 0xFE02#16 [] := by
  simp only [StringBlocked, IsDevice]
  decide

/-- OnlyStringServicesRefuse: an instruction of the first clause, and a refusal for the second. -/
theorem witness_OnlyStringServicesRefuse : Instr.trap 0x23#8 ≠ .puts ∧ Instr.trap 0x23#8 ≠ .putsp ∧ Instr.trap 0x23#8 ≠ .trap 0x22#8 ∧
    Instr.trap 0x23#8 ≠ .trap 0x24#8 ∧ exec .puts (blockedBench 0xF022#16) = .refused .stringReachesDevice :=
  ⟨by decide, by decide, by decide, by decide, rfl⟩

/-- FatalStepRecordsWordAndAddress: an RTI and, at the top of memory, a reserved word. -/
theorem witness_FatalStepRecordsWordAndAddress :
    (bench 0x3000#16 [(0x3000#16, 0x8FFF#16)]).running = true ∧ (bench 0x3000#16 [(0x3000#16, 0x8FFF#16)]).phase = .idle ∧
    (bench 0x3000#16 [(0x3000#16, 0x8FFF#16)]).mem.wf = true ∧ (bench 0x3000#16 [(0x3000#16, 0x8FFF#16)]).pc ≠ 0xFE00#16 ∧
    opcodeAt lc3OpcodeMap (field ((bench 0x3000#16 [(0x3000#16, 0x8FFF#16)]).word 0x3000#16) 12 4) = .rti ∧
    opcodeAt lc3OpcodeMap (field ((bench 0xFFFF#16 [(0xFFFF#16, 0xD000#16)]).word 0xFFFF#16) 12 4) = .reserved := by decide

/-- A state after a Fatal. -/
def fatalBench : State := State.reset.setRun false (.fatal .unimplementedOpcode 0x8000#16 0x3000#16)

/-- FatalIsSticky: a run with a step, a stop, a supplied byte, a read and a write. -/
theorem witness_FatalIsSticky : fatalBench.running = false ∧ fatalBench.stopCause = .fatal .unimplementedOpcode 0x8000#16 0x3000#16 ∧
    seen (·.word 0x3000#16) (runEvents [.step, .host .stop, .host (.supply 0x41#8), .host (.read 0x3000#16),
      .host (.write 0x3000#16 0x1234#16)] fatalBench) = some 0x1234#16 := by decide

/-- StepRunsDecodedInstruction: a stopped, a waiting and an idle state, at the top of memory. -/
theorem witness_StepRunsDecodedInstruction : State.reset.running = false ∧ (waiting .getc []).phase = .waitIn .getc ∧
    (bench 0xFFFF#16 []).running = true ∧ (bench 0xFFFF#16 []).phase = .idle ∧
    memRead (bench 0xFFFF#16 []) (bench 0xFFFF#16 []).pc = (0x0000#16, bench 0xFFFF#16 []) := by decide

/-- PcWrittenOnlyByTransfers: an instruction that writes no PC, a BR that is not taken, a resumed service. -/
theorem witness_PcWrittenOnlyByTransfers : (∃ t, exec (.lea 0#3 0#9) State.reset = .next t) ∧ writesPc (.lea 0#3 0#9) = false ∧
    (∃ t, exec (.br true false true 3#9) State.reset = .next t) ∧
    ¬ ((true = true ∧ State.reset.cond = .n) ∨ (false = true ∧ State.reset.cond = .z) ∨ (true = true ∧ State.reset.cond = .p)) ∧
    (∃ t, resumeInput .getc (waiting .getc [0x41#8]) = .next t) :=
  ⟨⟨_, rfl⟩, by decide, ⟨_, rfl⟩, by decide, ⟨_, rfl⟩⟩

/-- OnlyListedRegistersWritten: both clauses. -/
theorem witness_OnlyListedRegistersWritten : (∃ t, exec (.lea 0#3 0#9) State.reset = .next t) ∧ 1#3 ∉ regsWritten (.lea 0#3 0#9) ∧
    (∃ t, exec .halt State.reset = .next t) ∧ 6#3 ∉ regsWritten .halt ∧
    (∃ t, resumeInput .getc (waiting .getc [0x41#8]) = .next t) ∧ (1#3 : RegIdx) ≠ 0#3 :=
  ⟨⟨_, rfl⟩, by decide, ⟨_, rfl⟩, by decide, ⟨_, rfl⟩, by decide⟩

/-- CondSetOnlyByListed: an instruction that sets COND and one that does not. -/
theorem witness_CondSetOnlyByListed : (∃ t, exec (.ld 7#3 0#9) State.reset = .next t) ∧ flagSetter (.ld 7#3 0#9) = some 7#3 ∧
    (∃ t, exec (.jsr 0#11) State.reset = .next t) ∧ flagSetter (.jsr 0#11) = none :=
  ⟨⟨_, rfl⟩, by decide, ⟨_, rfl⟩, by decide⟩

/-- CondReadOnlyByBranch: a BR that answers a next state, and an instruction that is no BR. -/
theorem witness_CondReadOnlyByBranch : (∃ t, exec (.br true true true 0#9) State.reset = .next t) ∧
    ∀ n z p off, Instr.halt ≠ .br n z p off := ⟨⟨_, rfl⟩, by intro n z p off h; cases h⟩

/-- RunningClearedOnlyByHaltFatalStop: a step that halts, each disjunct of the clause over instructions, and the stop request. -/
theorem witness_RunningClearedOnlyByHaltFatalStop :
    (bench 0x3000#16 [(0x3000#16, 0xF025#16)]).running = true ∧
    seen (·.running) (step (bench 0x3000#16 [(0x3000#16, 0xF025#16)])) = some false ∧
    seen (·.running) (exec .halt (bench 0x3001#16 [])) = some false ∧ seen (·.running) (exec .rti (bench 0x3001#16 [])) = some false ∧
    seen (·.running) (exec (.trap 0x26#8) (bench 0x3001#16 [])) = some false ∧
    seen (·.running) (hostMove .stop (bench 0x3001#16 [])) = some false ∧
    (bench 0x3001#16 []).stopCause = .none := by decide

/-- StreamsKeepTheirOrder and ParametersNeverChange: a step and a host move that answer a next state. -/
theorem witness_step_next : (∃ t, step (waiting .inp [0x41#8]) = .next t) ∧ (∃ t, transition .step (waiting .inp [0x41#8]) = .next t) ∧
    (∃ t, transition (.host (.write 0x3000#16 1#16)) State.reset = .next t) := ⟨⟨_, rfl⟩, ⟨_, rfl⟩, ⟨_, rfl⟩⟩

/-- StepKeepsInvariant and RunsKeepInvariant: a waiting state that meets the invariant and takes a step, and a run. -/
theorem witness_invariant : (waiting .getc [0x41#8]).Inv ∧ (∃ t, step (waiting .getc [0x41#8]) = .next t) ∧
    (∃ t, runEvents [.host .start, .step] State.reset = .next t) ∧ State.reset.Inv :=
  ⟨by decide, ⟨_, rfl⟩, ⟨_, rfl⟩, by decide⟩

/-- LaunchMeetsInvariant. -/
theorem witness_LaunchMeetsInvariant : defaultConfig.wf = true := by decide

/-- StopRequestStopsTheCore and HostMovesWithinTheirRights: a state after a Fatal, and one with another stop cause. -/
theorem witness_stopCause : fatalBench.stopCause = .fatal .unimplementedOpcode 0x8000#16 0x3000#16 ∧
    ∀ k w a, (State.reset.setRun false .halt).stopCause ≠ .fatal k w a := ⟨by decide, by intro k w a h; cases h⟩

/-- HostMovesWithinTheirRights: memory in use by a running core and by a waiting one, memory free, and a move that answers a next state. -/
theorem witness_HostMovesWithinTheirRights : (bench 0x3000#16 []).running = true ∧ (waiting .getc []).phase ≠ .idle ∧
    State.reset.mem.wf = true ∧ State.reset.running = false ∧ State.reset.phase = .idle ∧
    (0xFDFF#16 : Word) ≠ State.reset.cfg.kbsrAddr ∧ seen (·.pc) (hostMove .start State.reset) = some 0x3000#16 := by decide

/-- LoaderPlacesImage: an image that just fits, its word 0, the address below it, and an image that does not fit. -/
theorem witness_LoaderPlacesImage : (0xFFFF#16).toNat + [0x1234#16].length ≤ 65536 ∧ 0 < [0x1234#16].length ∧
    (0xFFFE#16).toNat < (0xFFFF#16).toNat ∧ (0x3000#16).toNat + [0x1234#16].length ≤ (0x3001#16).toNat ∧
    65536 < (0xFFFF#16).toNat + [0x1234#16, 0x1234#16].length ∧ State.reset.mem.wf = true ∧ State.reset.running = false ∧
    State.reset.phase = .idle := by decide

end Sys2Proof.Tests
end

section
/-! PROOFS, 00_scope.md. The bits of the two extensions. -/

namespace Sys2Proof.Machine

/-- Sign extension bit by bit (00_scope.md R8): the field below its width, its top bit from there to bit 15. -/
theorem getLsbD_sext {n : Nat} (v : BitVec n) {i : Nat} (hi : i < 16) :
    (sext v).getLsbD i = if i < n then v.getLsbD i else v.getLsbD (n - 1) := by
  unfold sext
  rw [BitVec.getLsbD_signExtend, BitVec.msb_eq_getLsbD_last]
  simp [hi]

/-- Zero extension bit by bit (00_scope.md R8): the byte in the low half, zeros in the high half. -/
theorem getLsbD_zext (b : Byte) {i : Nat} (hi : i < 16) :
    (zext b).getLsbD i = if i < 8 then b.getLsbD i else false := by
  unfold zext
  rw [BitVec.getLsbD_setWidth]
  by_cases h : i < 8
  · simp [h, hi]
  · simp [h, b.getLsbD_of_ge i (Nat.le_of_not_lt h)]

end Sys2Proof.Machine

namespace Sys2Proof

/-- Settles O7: each extension's bits, read off one at a time. -/
theorem extensionFillsHighBits : Obligations.ExtensionFillsHighBits := by
  unfold Obligations.ExtensionFillsHighBits
  exact ⟨fun _ v _ _ _ hi => Machine.getLsbD_sext v hi, fun b _ hi => Machine.getLsbD_zext b hi⟩

end Sys2Proof
end

section
/-! PROOFS, 10_state.md. `setcc`, the step, and which operations read or write PC, COND and `running`. -/

namespace Sys2Proof.Machine

/-! ### The fetch and the resumed services (R22, R35) -/

/-- The incremented PC as a number: one more, modulo 2^16 (R22). -/
theorem add_one_eq_ofNat (w : Word) : w + 1#16 = BitVec.ofNat 16 ((w.toNat + 1) % 65536) := by
  apply BitVec.eq_of_toNat_eq
  simp

/-- The fetch in terms of the word that its read gives and the state that the read leaves (R35). -/
theorem fetch_of_memRead {s u : State} {w : Word} (h : memRead s s.pc = (w, u)) :
    fetch s = (u.setInstr w).setPc (BitVec.ofNat 16 ((s.pc.toNat + 1) % 65536)) := by
  rw [← add_one_eq_ofNat]
  simp [fetch, h]

/-- The input write leaves PC and `running` alone. -/
@[simp] theorem pc_writeInput (b : Byte) (s : State) : (writeInput b s).pc = s.pc := by simp [writeInput_eq]
@[simp] theorem running_writeInput (b : Byte) (s : State) : (writeInput b s).running = s.running := by simp [writeInput_eq]

/-- A resumed service leaves PC and `running` alone, held or not (R22, R27). -/
theorem resumeInput_pc_running {k : InputService} {s t : State} (h : resumeInput k s = .next t) :
    t.pc = s.pc ∧ t.running = s.running := by
  rcases resumeInput_cases k s with ⟨_, h'⟩ | ⟨b, rest, _, h'⟩ <;> rw [h'] at h <;> cases h <;> simp

/-! ### PC (R22) -/

/-- An instruction outside the list of R22 leaves PC as the fetch left it. -/
theorem exec_pc {i : Instr} {s t : State} (h : exec i s = .next t) (hw : writesPc i = false) : t.pc = s.pc := by
  cases exec_effect h with
  | result _ _ _ _ _ _ hu => simpa using hu.pc
  | store _ _ _ _ _ _ _ hu => simpa using hu.pc
  | jump _ _ _ hp => simp [hp] at hw
  | call _ _ _ hp => simp [hp] at hw
  | halt _ _ _ _ hp => simp [hp] at hw
  | output => rfl
  | wait => rfl
  | unknownVector => rfl
  | unimplemented => rfl

/-- BR takes the branch exactly when the mask names COND (41_control.md R90). -/
theorem branchTaken_iff (n z p : Bool) (c : Cond) :
    branchTaken n z p c = true ↔ (n = true ∧ c = .n) ∨ (z = true ∧ c = .z) ∨ (p = true ∧ c = .p) := by
  rw [branchTaken_eq]
  cases c <;> simp

/-! ### COND (R26) -/

/-- BR changes PC only: its two outcomes. -/
theorem execBr_cases (n z p : Bool) (off : BitVec 9) (s : State) :
    (branchTaken n z p s.cond = true ∧ execBr n z p off s = .next (s.setPc (pcRelative s off))) ∨
    (branchTaken n z p s.cond = false ∧ execBr n z p off s = .next s) := by
  cases h : branchTaken n z p s.cond
  · exact .inr ⟨rfl, by simp [execBr, h]⟩
  · exact .inl ⟨rfl, by simp [execBr, h]⟩

/-- f does the same whatever COND holds: two states that differ in COND only have outcomes that differ in COND only (R26). -/
def CondBlind (f : State → Result) : Prop :=
  ∀ (s : State) (c : Cond), mapNext (fun t => t.setCond .z) (f (s.setCond c)) = mapNext (fun t => t.setCond .z) (f s)

/-- An operation whose outcome does not depend on COND at all is blind to it. -/
theorem CondBlind.of_ignores {f : State → Result} (h : ∀ s c, f (s.setCond c) = f s) : CondBlind f :=
  fun s c => by rw [h]

/-- An operation that carries COND along is blind to it. -/
theorem CondBlind.of_commutes {f : State → Result} (h : ∀ s c, f (s.setCond c) = mapNext (fun t => t.setCond c) (f s)) :
    CondBlind f := by
  intro s c
  rw [h]
  cases f s <;> rfl

/-- A load overwrites COND and never reads it. -/
theorem loadFrom_setCond (dr : RegIdx) (ea : Word) (s : State) (c : Cond) : loadFrom dr ea (s.setCond c) = loadFrom dr ea s := by
  simp only [loadFrom, memRead, intercept_setCond]
  rfl

/-- An indirect operand's pointer does not depend on COND. -/
theorem indirect_setCond (s : State) (c : Cond) (off : BitVec 9) :
    indirect (s.setCond c) off = ((indirect s off).1, (indirect s off).2.setCond c) := by
  simp only [indirect, memRead, pcRelative, State.pc_setCond, intercept_setCond, State.word_setCond]

/-- A string service carries COND along. -/
theorem writeString_setCond (f : Word → List Byte) (s : State) (c : Cond) :
    writeString f (s.setCond c) = mapNext (fun t => t.setCond c) (writeString f s) := by
  have hw : stringWords (s.setCond c) ((s.setCond c).reg 0#3) = stringWords s (s.reg 0#3) := rfl
  unfold writeString
  rw [hw]
  cases stringWords s (s.reg 0#3) <;> rfl

/-- The trap dispatcher carries COND along, into every service. -/
theorem dispatchTrap_setCond (v : BitVec 8) (s : State) (c : Cond) :
    dispatchTrap v (s.setCond c) = mapNext (fun t => t.setCond c) (dispatchTrap v s) := by
  unfold dispatchTrap
  split_ifs
  · rfl
  · rfl
  · exact writeString_setCond _ s c
  · rfl
  · exact writeString_setCond _ s c
  · rfl
  · rfl

/-- Every instruction but BR is blind to COND: ADD, AND, NOT, LEA and the loads overwrite it, the others carry it along (R26). -/
theorem condBlind_exec {i : Instr} (h : ∀ n z p off, i ≠ .br n z p off) : CondBlind (exec i) := by
  cases i with
  | br n z p off => exact absurd rfl (h n z p off)
  | addReg | addImm | andReg | andImm | not | lea => exact .of_ignores fun _ _ => rfl
  | ld dr off => exact .of_ignores fun s c => congrArg Host.Outcome.next (loadFrom_setCond dr _ s c)
  | ldr dr baseR off => exact .of_ignores fun s c => congrArg Host.Outcome.next (loadFrom_setCond dr _ s c)
  | ldi dr off =>
    refine .of_ignores fun s c => ?_
    simp only [exec, execLdi, indirect_setCond, loadFrom_setCond]
  | sti sr off =>
    refine .of_commutes fun s c => ?_
    simp only [exec, execSti, indirect_setCond]
    rfl
  | jmp | ret | jsr | jsrr | st | str | getc | out | inp | halt | rti | reserved => exact .of_commutes fun _ _ => rfl
  | puts => exact .of_commutes fun s c => writeString_setCond _ (link s) c
  | putsp => exact .of_commutes fun s c => writeString_setCond _ (link s) c
  | trap v => exact .of_commutes fun s c => dispatchTrap_setCond v (link s) c

/-- A resumed service is blind to COND: it overwrites it or carries it along, by `TRAP_INPUT_SETS_COND`. -/
theorem condBlind_resumeInput (k : InputService) : CondBlind (resumeInput k) := by
  intro s c
  simp only [resumeInput, State.input_setCond, writeInput_eq]
  cases s.input <;> rfl

/-- No move of the host looks at COND. -/
theorem condBlind_hostMove (m : HostMove) : CondBlind (hostMove m) := by
  refine .of_commutes fun s c => ?_
  cases m with
  | supply b => rfl
  | stop =>
    simp only [hostMove, hostStop, State.stopCause_setCond]
    cases s.stopCause <;> rfl
  | start =>
    simp only [hostMove, hostStart, State.stopCause_setCond]
    cases s.stopCause <;> rfl
  | read a =>
    have hu : hostMayUseMemory (s.setCond c) = hostMayUseMemory s := rfl
    simp only [hostMove, hostRead, hu, memRead_snd, intercept_setCond]
    split <;> rfl
  | write a v =>
    have hu : hostMayUseMemory (s.setCond c) = hostMayUseMemory s := rfl
    simp only [hostMove, hostWrite, hu]
    split <;> rfl

/-! ### `running` (R27) -/

/-- An instruction that stops a running core is HALT, an unimplemented opcode or a TRAP with an unknown vector, and says so in
`stop_cause`. -/
theorem exec_stops {i : Instr} {s t : State} (hr : s.running = true) (h : exec i s = .next t) (ht : t.running = false) :
    (t.stopCause = .halt ∧ (i = .halt ∨ i = .trap 0x25#8)) ∨
    (t.stopCause = .fatal .unimplementedOpcode s.instr (s.pc - 1#16) ∧ (i = .rti ∨ i = .reserved)) ∨
    (t.stopCause = .fatal .unknownTrapVector s.instr (s.pc - 1#16) ∧ ∃ v, i = .trap v) := by
  cases exec_effect h with
  | halt _ _ _ _ _ _ hi => exact .inl ⟨rfl, hi⟩
  | unimplemented _ _ _ _ hi => exact .inr (.inl ⟨rfl, hi⟩)
  | unknownVector v _ _ _ _ hi => exact .inr (.inr ⟨rfl, v, hi⟩)
  | result _ _ _ _ _ _ hu => simp [hu.running, hr] at ht
  | store _ _ _ _ _ _ _ hu => simp [hu.running, hr] at ht
  | jump => simp [hr] at ht
  | call => simp [hr] at ht
  | output => simp [hr] at ht
  | wait => simp [hr] at ht

/-- A step that stops a running core leaves the stop cause of HALT or of the fatal path. -/
theorem step_stops {s t : State} (hr : s.running = true) (h : step s = .next t) (ht : t.running = false) :
    t.stopCause = .halt ∨ ∃ k w a, t.stopCause = .fatal k w a := by
  rcases step_cases s with ⟨h0, _⟩ | ⟨k, _, _, hs⟩ | ⟨_, _, hs⟩
  · simp [hr] at h0
  · have hk := (resumeInput_pc_running (hs ▸ h)).2
    simp [hk, hr] at ht
  · rcases exec_stops (by simpa using hr) (hs ▸ h) ht with ⟨e, _⟩ | ⟨e, _⟩ | ⟨e, _⟩
    · exact .inl e
    · exact .inr ⟨_, _, _, e⟩
    · exact .inr ⟨_, _, _, e⟩

/-- A move of the host that stops a running core is the stop request (R32). -/
theorem hostMove_stops {m : HostMove} {s t : State} (hr : s.running = true) (h : hostMove m s = .next t)
    (ht : t.running = false) : m = .stop ∧ t.stopCause = .hostStop := by
  rcases hostMove_cases h with ⟨_, _, rfl⟩ | ⟨_, _, rfl⟩ | ⟨hm, _, rfl⟩ | ⟨_, _, rfl⟩ | ⟨_, _, h0, _⟩ | ⟨_, _, _, h0, _⟩
  · simp [hr] at ht
  · simp [hr] at ht
  · exact ⟨hm, rfl⟩
  · cases ht
  · simp [hr] at h0
  · simp [hr] at h0

/-- The stop request of a core with no stop cause stops it. -/
theorem hostStop_of_none {s : State} (h : s.stopCause = .none) :
    hostMove .stop s = .next ((s.setRun false .hostStop).setPhase .idle) := by
  simp [hostMove, hostStop, h]

/-- The host starts a core whose stop cause is no Fatal (R33). -/
theorem hostStart_of_not_fatal {s : State} (h : ∀ k w a, s.stopCause ≠ .fatal k w a) :
    hostMove .start s = .next (s.setRun true .none) := by
  cases hc : s.stopCause with
  | fatal k w a => exact absurd hc (h k w a)
  | none | halt | hostStop => simp [hostMove, hostStart, hc]

end Sys2Proof.Machine

namespace Sys2Proof

open Machine

/-- Settles O9: the flag is `condOf v`, and `setcc` assigns it. -/
theorem setccAssignsSign : Obligations.SetccAssignsSign := by
  unfold Obligations.SetccAssignsSign
  exact fun v s => ⟨condOf v, rfl, flagsOf_condOf v, rfl⟩

/-- Settles O44: the three ways a step can go, the third with the fetch written out. -/
theorem stepRunsDecodedInstruction : Obligations.StepRunsDecodedInstruction := by
  unfold Obligations.StepRunsDecodedInstruction
  refine ⟨fun _ => step_stopped, fun _ _ => step_waiting, fun s w u hr hp hm => ?_⟩
  rw [step_idle hr hp, fetch_of_memRead hm]
  rfl

/-- Settles O45: by the shapes of a next state of `exec`, and by BR's test. -/
theorem pcWrittenOnlyByTransfers : Obligations.PcWrittenOnlyByTransfers := by
  unfold Obligations.PcWrittenOnlyByTransfers
  refine ⟨fun s => ?_, fun _ _ _ => exec_pc, fun n z p off s t h hc => ?_, fun _ _ _ h => (resumeInput_pc_running h).1⟩
  · simp
  · rw [← branchTaken_iff] at hc
    rcases execBr_cases n z p off s with ⟨hb, _⟩ | ⟨_, he⟩
    · exact absurd hb hc
    · cases he.symm.trans h
      rfl

/-- Settles O48: BR writes PC only, and every other operation is blind to COND. -/
theorem condReadOnlyByBranch : Obligations.CondReadOnlyByBranch := by
  unfold Obligations.CondReadOnlyByBranch
  refine ⟨fun n z p off s t h => ?_, fun _ s c hi => condBlind_exec hi s c, condBlind_resumeInput, condBlind_hostMove,
    fun a s c => ?_⟩
  · rcases execBr_cases n z p off s with ⟨_, he⟩ | ⟨_, he⟩ <;> cases he.symm.trans h <;> exact ⟨rfl, rfl⟩
  · simp [hostReadValue, intercept_setCond]

/-- Settles O49: what stops a core, by the shapes of a next state of `exec`, of a resumed service and of a host move. -/
theorem runningClearedOnlyByHaltFatalStop : Obligations.RunningClearedOnlyByHaltFatalStop := by
  unfold Obligations.RunningClearedOnlyByHaltFatalStop
  exact ⟨fun _ => ⟨_, rfl, rfl⟩, running_raiseFatal, fun _ h => ⟨_, hostStop_of_none h, rfl⟩,
    fun _ h => ⟨_, hostStart_of_not_fatal h, rfl⟩, fun _ _ => step_stops, fun _ _ _ => exec_stops,
    fun _ _ _ => hostMove_stops, fun _ => step_stopped⟩

end Sys2Proof
end

section
/-! PROOFS, 20_memory.md. Effective addresses as numbers, the stores as `MemWrite`s, and what a `MemWrite` changes. -/

namespace Sys2Proof.Machine

/-! ### Effective addresses (R47) -/

/-- A word plus a sign-extended offset, read as a number: the integer sum modulo 65,536. -/
theorem toNat_add_sext {n : Nat} (h : n ≤ 16) (w : Word) (v : BitVec n) :
    ((w + sext v).toNat : Int) = ((w.toNat : Int) + v.toInt) % 65536 := by
  rw [add_sext h, BitVec.toNat_ofInt, Int.toNat_of_nonneg (Int.emod_nonneg _ (by decide))]
  rfl

/-- The walk of a string goes on from a non-zero plain word at the next address, which wraps at 0xFFFF (R47, R48). -/
theorem stringWords_of_ne_zero {s : State} {a : Word} (hd : ¬ IsDevice s a) (hw : s.word a ≠ 0x0000#16) :
    stringWords s a = (stringWords s (BitVec.ofNat 16 ((a.toNat + 1) % 65536))).map (s.word a :: ·) := by
  unfold IsDevice at hd
  rw [stringWords_eq, if_neg hd, if_neg hw, add_one_eq_ofNat]

/-! ### Loads and stores (42_load_store.md R100 to R106) -/

/-- LD loads from its PC-relative address. -/
theorem exec_ld (dr : RegIdx) (off : BitVec 9) (s : State) :
    exec (.ld dr off) s = .next (loadFrom dr (pcRelative s off) s) := rfl

/-- LDI loads from its pointer, in the state that the pointer's read leaves. -/
theorem exec_ldi (dr : RegIdx) (off : BitVec 9) (s : State) :
    exec (.ldi dr off) s = .next (loadFrom dr (indirect s off).1 (indirect s off).2) := rfl

/-- LDR loads from its base-plus-offset address. -/
theorem exec_ldr (dr baseR : RegIdx) (off : BitVec 6) (s : State) :
    exec (.ldr dr baseR off) s = .next (loadFrom dr (baseOffset s baseR off) s) := rfl

/-- ST is a `MemWrite` at its PC-relative address. -/
theorem exec_st (sr : RegIdx) (off : BitVec 9) (s : State) :
    exec (.st sr off) s = .next (memWrite s (pcRelative s off) (s.reg sr)) := rfl

/-- STI is a `MemWrite` at its pointer: the pointer's read may poll the keyboard and leaves the stored register alone. -/
theorem exec_sti (sr : RegIdx) (off : BitVec 9) (s : State) :
    exec (.sti sr off) s = .next (memWrite (indirect s off).2 (indirect s off).1 (s.reg sr)) := by
  have hr : (indirect s off).2.reg sr = s.reg sr := reg_intercept s (pcRelative s off) sr
  rw [← hr]
  rfl

/-- STR is a `MemWrite` at its base-plus-offset address. -/
theorem exec_str (sr baseR : RegIdx) (off : BitVec 6) (s : State) :
    exec (.str sr baseR off) s = .next (memWrite s (baseOffset s baseR off) (s.reg sr)) := rfl

/-! ### `MemWrite` (R42) -/

/-- `MemWrite` stores the word and changes nothing else, at any address. -/
theorem onlyStored_memWrite {s : State} (hm : s.mem.wf = true) (a v : Word) : OnlyStored a v s (memWrite s a v) :=
  onlyStored_setWord hm a v

/-- `MemWrite` keeps the canonical form. -/
theorem wf_memWrite {s : State} (hm : s.mem.wf = true) (a v : Word) : (memWrite s a v).mem.wf = true :=
  State.wf_setWord hm a v

/-- The host's write is a `MemWrite` while the host may use memory (10_state.md R33). -/
theorem hostMove_write {s : State} (h : hostMayUseMemory s = true) (a v : Word) :
    hostMove (.write a v) s = .next (memWrite s a v) := by
  simp [hostMove, hostWrite, h]

end Sys2Proof.Machine

namespace Sys2Proof

open Machine

/-- Settles O8: the sums by sign extension, the walk by its equation, and an outcome for each load and store. -/
theorem effectiveAddressesWrap : Obligations.EffectiveAddressesWrap := by
  unfold Obligations.EffectiveAddressesWrap
  refine ⟨fun s => toNat_add_sext (by decide) s.pc, fun s => toNat_add_sext (by decide) s.pc,
    fun s r => toNat_add_sext (by decide) (s.reg r), fun _ _ => stringWords_of_ne_zero, fun r off s => ?_, fun r b off s => ?_⟩
  · exact ⟨⟨_, exec_ld r off s⟩, ⟨_, exec_ldi r off s⟩, ⟨_, exec_st r off s⟩, ⟨_, exec_sti r off s⟩⟩
  · exact ⟨⟨_, exec_ldr r b off s⟩, ⟨_, exec_str r b off s⟩⟩

/-- Settles O24: the frame of `MemWrite`, and each storing agent as a `MemWrite`. -/
theorem memWriteStoresEverywhere : Obligations.MemWriteStoresEverywhere := by
  unfold Obligations.MemWriteStoresEverywhere
  exact ⟨fun _ a v hm => ⟨onlyStored_memWrite hm a v, wf_memWrite hm a v⟩, exec_st, exec_sti, exec_str,
    fun _ a v h => hostMove_write h a v, fun _ _ _ _ => ⟨rfl, rfl⟩⟩

end Sys2Proof
end

section
/-! PROOFS, 40_operate.md. ADD, AND and NOT: the fields each reads, the word each writes, and the frame they share. -/

namespace Sys2Proof

/-- A word whose opcode name is known is decoded by that name's fields (30_encoding.md R61). -/
theorem decode_of_opcodeAt {m : OpcodeMap} {w : Word} {op : Opcode} (h : opcodeAt m (field w 12 4) = op) :
    decode m w = decodeAs op w := by
  unfold decode
  rw [h]

end Sys2Proof

namespace Sys2Proof.Machine

/-! ### The result each instruction writes (R80 to R82) -/

/-- ADD, register mode, writes the sum of two registers. -/
theorem exec_addReg (dr sr1 sr2 : RegIdx) (s : State) :
    exec (.addReg dr sr1 sr2) s = .next (writeResult dr (s.reg sr1 + s.reg sr2) s) := rfl

/-- ADD, immediate mode, writes the sum of a register and the sign-extended immediate. -/
theorem exec_addImm (dr sr1 : RegIdx) (imm5 : BitVec 5) (s : State) :
    exec (.addImm dr sr1 imm5) s = .next (writeResult dr (s.reg sr1 + sext imm5) s) := rfl

/-- AND, register mode, writes the conjunction of two registers. -/
theorem exec_andReg (dr sr1 sr2 : RegIdx) (s : State) :
    exec (.andReg dr sr1 sr2) s = .next (writeResult dr (s.reg sr1 &&& s.reg sr2) s) := rfl

/-- AND, immediate mode, writes the conjunction of a register and the sign-extended immediate. -/
theorem exec_andImm (dr sr1 : RegIdx) (imm5 : BitVec 5) (s : State) :
    exec (.andImm dr sr1 imm5) s = .next (writeResult dr (s.reg sr1 &&& sext imm5) s) := rfl

/-- NOT writes the complement of a register. -/
theorem exec_not (dr sr : RegIdx) (s : State) : exec (.not dr sr) s = .next (writeResult dr (~~~ s.reg sr) s) := rfl

/-- An instruction whose whole effect is a result write leaves that word in DR and its sign in COND, and changes nothing else. DR may be one
of the sources: the word is computed from the state before the write. -/
theorem exec_result {i : Instr} {dr : RegIdx} {v : Word} {s : State} (h : exec i s = .next (writeResult dr v s)) :
    ∃ t, exec i s = .next t ∧ t.reg dr = v ∧ FlagsOf t.cond (t.reg dr) ∧ OnlyResult dr s t := by
  have hv : (writeResult dr v s).reg dr = v := by simp
  refine ⟨_, h, hv, ?_, onlyResult_writeResult dr v s⟩
  rw [hv]
  exact flagsOf_condOf v

end Sys2Proof.Machine

namespace Sys2Proof

open Machine

/-- Settles O10: the sum of two words as a number, and the sum with a sign-extended immediate. -/
theorem addSumsModuloWord : Obligations.AddSumsModuloWord := by
  unfold Obligations.AddSumsModuloWord
  refine ⟨fun _ _ => decode_of_opcodeAt, fun dr sr1 sr2 s => ?_, fun dr sr1 imm5 s => ?_⟩
  · obtain ⟨t, ht, hv, hcond, hframe⟩ := exec_result (exec_addReg dr sr1 sr2 s)
    refine ⟨t, ht, ?_, hcond, hframe⟩
    rw [hv]
    exact BitVec.toNat_add _ _
  · obtain ⟨t, ht, hv, hcond, hframe⟩ := exec_result (exec_addImm dr sr1 imm5 s)
    refine ⟨t, ht, ?_, hcond, hframe⟩
    rw [hv]
    exact toNat_add_sext (by decide) _ imm5

/-- Settles O11: the bits of a conjunction, an immediate's by those of its sign extension. -/
theorem andIsBitwise : Obligations.AndIsBitwise := by
  unfold Obligations.AndIsBitwise
  refine ⟨fun _ _ => decode_of_opcodeAt, fun dr sr1 sr2 s => ?_, fun dr sr1 imm5 s => ?_⟩
  · obtain ⟨t, ht, hv, hcond, hframe⟩ := exec_result (exec_andReg dr sr1 sr2 s)
    refine ⟨t, ht, fun i => ?_, hcond, hframe⟩
    rw [hv, BitVec.getLsbD_and]
  · obtain ⟨t, ht, hv, hcond, hframe⟩ := exec_result (exec_andImm dr sr1 imm5 s)
    refine ⟨t, ht, fun i hi => ?_, hcond, hframe⟩
    rw [hv, BitVec.getLsbD_and, getLsbD_sext imm5 hi]

/-- Settles O12: the bits of a complement. -/
theorem notComplements : Obligations.NotComplements := by
  unfold Obligations.NotComplements
  refine ⟨fun _ _ => decode_of_opcodeAt, fun dr sr s => ?_⟩
  obtain ⟨t, ht, hv, hcond, hframe⟩ := exec_result (exec_not dr sr s)
  refine ⟨t, ht, fun i hi => ?_, hcond, hframe⟩
  rw [hv]
  simp [hi]

end Sys2Proof
end

section
/-! PROOFS, 41_control.md. BR and JSR: the fields each reads and the PC each leaves. -/

namespace Sys2Proof

/-- A word of opcode JSR with bit 11 set is the PC-relative call (41_control.md R93). -/
theorem decode_jsr {m : OpcodeMap} {w : Word} (h : opcodeAt m (field w 12 4) = .jsr) (hb : bit w 11 = true) :
    decode m w = .jsr (field w 0 11) := by
  rw [decode_of_opcodeAt h, decodeAs, if_pos hb]

end Sys2Proof

namespace Sys2Proof.Machine

/-- BR, taken or not, is one PC write: the target if the mask names COND, else the PC that the fetch left (R90). -/
theorem exec_br (n z p : Bool) (off : BitVec 9) (s : State) :
    exec (.br n z p off) s = .next (s.setPc (if branchTaken n z p s.cond then pcRelative s off else s.pc)) := by
  rcases execBr_cases n z p off s with ⟨hb, he⟩ | ⟨hb, he⟩
  · rw [hb]
    exact he
  · rw [hb]
    exact he

/-- JSR links, then writes PC; the target is that of the state before the link (R93). -/
theorem exec_jsr (off : BitVec 11) (s : State) : exec (.jsr off) s = .next ((link s).setPc (pcRelative s off)) := rfl

end Sys2Proof.Machine

namespace Sys2Proof

open Machine

/-- Settles O13: BR is one PC write, its test the one by named condition, its target the integer sum. -/
theorem branchOnNamedCondition : Obligations.BranchOnNamedCondition := by
  unfold Obligations.BranchOnNamedCondition
  refine ⟨fun _ _ => decode_of_opcodeAt, fun n z p off s => ⟨_, exec_br n z p off s, ?_, onlyPc_setPc _ s⟩⟩
  rw [State.pc_setPc, pcRelative_eq (by decide)]
  simp only [branchTaken_iff]

/-- Settles O15: JSR is the link and one PC write, its target the integer sum. -/
theorem jsrLinksAndBranches : Obligations.JsrLinksAndBranches := by
  unfold Obligations.JsrLinksAndBranches
  refine ⟨fun _ _ => decode_jsr, fun off s => ⟨_, exec_jsr off s, ?_, ?_, onlyPcAndLink_setPc _ s⟩⟩
  · rw [State.reg_setPc, reg_link, if_pos rfl]
  · rw [State.pc_setPc, pcRelative_eq (by decide)]

end Sys2Proof
end

section
/-! PROOFS, 42_load_store.md. What every load shares, what every store shares, and each instruction as one of the two at its address. -/

namespace Sys2Proof.Machine

/-! ### Loads (R100 to R103) -/

/-- LEA writes its PC-relative address as the result, with no read (R103). -/
theorem exec_lea (dr : RegIdx) (off : BitVec 9) (s : State) :
    exec (.lea dr off) s = .next (writeResult dr (pcRelative s off) s) := rfl

/-- A load is the result write of the word that `MemRead` gives, in the state that the read leaves. -/
theorem loadFrom_eq (dr : RegIdx) (a : Word) (s : State) :
    loadFrom dr a s = writeResult dr (memRead s a).1 (memRead s a).2 := rfl

/-- An instruction whose whole effect is a load from a in the state u puts the word read in DR and its sign in COND, and changes nothing
else in the state that the read leaves. For LDI, u is the state left by the pointer's read. -/
theorem exec_load {i : Instr} {dr : RegIdx} {a : Word} {s u : State} (h : exec i s = .next (loadFrom dr a u)) :
    ∃ t, exec i s = .next t ∧
      ∃ r, r = memRead u a ∧ t.reg dr = r.1 ∧ FlagsOf t.cond r.1 ∧ OnlyResult dr r.2 t := by
  rw [loadFrom_eq] at h
  refine ⟨_, h, memRead u a, rfl, ?_, flagsOf_condOf _, onlyResult_writeResult dr _ _⟩
  rw [reg_writeResult, if_pos rfl]

/-! ### Stores (R104 to R106) -/

/-- The read of a pointer keeps the canonical form of memory (R105). -/
theorem wf_indirect {s : State} (hm : s.mem.wf = true) (off : BitVec 9) : (indirect s off).2.mem.wf = true :=
  wf_intercept s (pcRelative s off) hm

/-- An instruction whose whole effect is a `MemWrite` in the state u stores that word and changes nothing else in u, and memory stays
canonical. For STI, u is the state left by the pointer's read. -/
theorem exec_store {i : Instr} {a v : Word} {s u : State} (hm : u.mem.wf = true) (h : exec i s = .next (memWrite u a v)) :
    ∃ t, exec i s = .next t ∧ OnlyStored a v u t ∧ t.mem.wf = true :=
  ⟨_, h, onlyStored_memWrite hm a v, wf_memWrite hm a v⟩

end Sys2Proof.Machine

namespace Sys2Proof

open Machine

/-- Settles O17: LD is a load from its PC-relative address, which is the integer sum. -/
theorem ldLoadsPcRelative : Obligations.LdLoadsPcRelative := by
  unfold Obligations.LdLoadsPcRelative
  refine ⟨fun _ _ => decode_of_opcodeAt, fun dr off s => ?_⟩
  rw [← pcRelative_eq (by decide) s off]
  exact exec_load (exec_ld dr off s)

/-- Settles O18: LDI is a load from its pointer, in the state that the pointer's read leaves. -/
theorem ldiLoadsThroughPointer : Obligations.LdiLoadsThroughPointer := by
  unfold Obligations.LdiLoadsThroughPointer
  refine ⟨fun _ _ => decode_of_opcodeAt, fun dr off s => ?_⟩
  rw [← pcRelative_eq (by decide) s off]
  obtain ⟨t, ht, r, hr, hload⟩ := exec_load (exec_ldi dr off s)
  exact ⟨t, ht, indirect s off, r, rfl, hr, hload⟩

/-- Settles O19: LDR is a load from its base-plus-offset address, computed before DR is written. -/
theorem ldrLoadsBaseOffset : Obligations.LdrLoadsBaseOffset := by
  unfold Obligations.LdrLoadsBaseOffset
  refine ⟨fun _ _ => decode_of_opcodeAt, fun dr baseR off s => ?_⟩
  rw [← baseOffset_eq s baseR off]
  exact exec_load (exec_ldr dr baseR off s)

/-- Settles O20: LEA is a result write of the address, so its frame leaves the input and the draws alone. -/
theorem leaLoadsAddress : Obligations.LeaLoadsAddress := by
  unfold Obligations.LeaLoadsAddress
  refine ⟨fun _ _ => decode_of_opcodeAt, fun dr off s => ?_⟩
  rw [← pcRelative_eq (by decide) s off]
  exact exec_result (exec_lea dr off s)

/-- Settles O21: ST is a `MemWrite` at its PC-relative address. -/
theorem stStoresPcRelative : Obligations.StStoresPcRelative := by
  unfold Obligations.StStoresPcRelative
  refine ⟨fun _ _ => decode_of_opcodeAt, fun sr off s hm => ?_⟩
  rw [← pcRelative_eq (by decide) s off]
  exact exec_store hm (exec_st sr off s)

/-- Settles O22: STI is a `MemWrite` at its pointer, in the state that the pointer's read leaves, whose memory is still canonical. -/
theorem stiStoresThroughPointer : Obligations.StiStoresThroughPointer := by
  unfold Obligations.StiStoresThroughPointer
  refine ⟨fun _ _ => decode_of_opcodeAt, fun sr off s hm => ?_⟩
  rw [← pcRelative_eq (by decide) s off]
  obtain ⟨t, ht, hstore⟩ := exec_store (wf_indirect hm off) (exec_sti sr off s)
  exact ⟨t, ht, indirect s off, rfl, hstore⟩

/-- Settles O23: STR is a `MemWrite` at its base-plus-offset address; SR is read before the store and may be the base. -/
theorem strStoresBaseOffset : Obligations.StrStoresBaseOffset := by
  unfold Obligations.StrStoresBaseOffset
  refine ⟨fun _ _ => decode_of_opcodeAt, fun sr baseR off s hm => ?_⟩
  rw [← baseOffset_eq s baseR off]
  exact exec_store hm (exec_str sr baseR off s)

end Sys2Proof
end

section
/-! PROOFS, 43_trap.md. A vector that names no service: its decoding and its fatal path after the link. -/

namespace Sys2Proof

/-- The vectors without a service are those below 0x20 and those above 0x25 (43_trap.md R128). -/
theorem namedVector_eq_false_iff (v : BitVec 8) :
    Instr.namedVector v = false ↔ v.toNat < 0x20 ∨ 0x25 < v.toNat := by
  simp only [Instr.namedVector, BitVec.le_def, BitVec.toNat_ofNat, Bool.and_eq_false_iff, decide_eq_false_iff_not, Nat.not_le]

/-- A word of opcode TRAP whose vector names no service decodes to TRAP with that vector (43_trap.md R121, R128). -/
theorem decode_trap_of_unnamed {m : OpcodeMap} {w : Word} (h : opcodeAt m (field w 12 4) = .trap)
    (hv : (field w 0 8).toNat < 0x20 ∨ 0x25 < (field w 0 8).toNat) : decode m w = .trap (field w 0 8) := by
  rw [decode_of_opcodeAt h, decodeAs]
  exact decodeTrap_of_unnamed ((namedVector_eq_false_iff _).mpr hv)

end Sys2Proof

namespace Sys2Proof.Machine

/-- TRAP with a vector that names no service links, then takes the fatal path (43_trap.md R128). -/
theorem exec_trap_unknown {v : BitVec 8} (hv : v.toNat < 0x20 ∨ 0x25 < v.toNat) (s : State) :
    exec (.trap v) s = .next (raiseFatal .unknownTrapVector (link s)) :=
  dispatchTrap_unknown hv (link s)

/-- The fatal path after the link is the fatal path of the state before it: the link writes R7 only, which the fatal path does not read. -/
theorem fatalFrom_raiseFatal_link (k : FatalKind) (s : State) : FatalFrom k s (raiseFatal k (link s)) :=
  fatalFrom_raiseFatal k (link s)

end Sys2Proof.Machine

namespace Sys2Proof

open Machine

/-- Settles O31: the decoder answers TRAP itself, and TRAP is the link and then the fatal path. -/
theorem unknownVectorIsFatal : Obligations.UnknownVectorIsFatal := by
  unfold Obligations.UnknownVectorIsFatal
  refine ⟨fun _ _ => decode_trap_of_unnamed, fun v s hv =>
    ⟨_, exec_trap_unknown hv s, fatalFrom_raiseFatal_link _ s, ?_, fun r hr => ?_⟩⟩
  · rw [reg_raiseFatal, reg_link, if_pos rfl]
  · rw [reg_raiseFatal, reg_link, if_neg hr]

end Sys2Proof
end

section
/-! PROOFS, 44_unimplemented.md. The two opcodes with no behaviour of their own: each is the fatal path and nothing else. -/

namespace Sys2Proof.Machine

/-- RTI is the fatal path (44_unimplemented.md R140). -/
theorem exec_rti (s : State) : exec .rti s = .next (raiseFatal .unimplementedOpcode s) := rfl

/-- The reserved opcode is the fatal path (44_unimplemented.md R141). -/
theorem exec_reserved (s : State) : exec .reserved s = .next (raiseFatal .unimplementedOpcode s) := rfl

/-- An instruction that only takes the fatal path stops the core with the fault recorded and leaves every register as before. -/
theorem exec_fatal {i : Instr} {k : FatalKind} {s : State} (h : exec i s = .next (raiseFatal k s)) :
    ∃ t, exec i s = .next t ∧ FatalFrom k s t ∧ SameRegs s t :=
  ⟨raiseFatal k s, h, fatalFrom_raiseFatal k s, reg_raiseFatal k s⟩

end Sys2Proof.Machine

namespace Sys2Proof

open Machine

/-- Settles O41: either opcode has no operand fields, so its name alone decides the decoding, and its execution is the fatal path
on the state itself. -/
theorem unimplementedOpcodesAreFatal : Obligations.UnimplementedOpcodesAreFatal := by
  unfold Obligations.UnimplementedOpcodesAreFatal
  exact ⟨fun _ _ => ⟨decode_of_opcodeAt, decode_of_opcodeAt⟩, fun s => exec_fatal (exec_rti s), fun s => exec_fatal (exec_reserved s)⟩

end Sys2Proof
end

section
/-! PROOFS, 70_reset_and_hazards.md. The words of a fresh core's memory. -/

namespace Sys2Proof.Machine

/-- A memory that holds no word explicitly reads as blank everywhere (20_memory.md R40). -/
@[simp] theorem Memory.wordAt_nil (a : Nat) : Memory.wordAt [] a = blankWord := rfl

/-- A fresh core's memory holds no word explicitly, whatever its launch parameters: the device words are no exception
(70_reset_and_hazards.md R170). -/
@[simp] theorem State.mem_launch (c : Config) (input : List Byte) : (State.launch c input).mem = [] := rfl

/-- Every word of a fresh core is blank (70_reset_and_hazards.md R170). -/
theorem State.word_launch (c : Config) (input : List Byte) (a : Word) : (State.launch c input).word a = blankWord := by
  rw [State.word, State.mem_launch, Memory.wordAt_nil]

end Sys2Proof.Machine

namespace Sys2Proof

open Machine

/-- Settles O55: the launch memory holds no word explicitly, and the blank word it reads as is 0x0000. -/
theorem memoryZeroAtReset : Obligations.MemoryZeroAtReset := by
  unfold Obligations.MemoryZeroAtReset
  exact State.word_launch

end Sys2Proof
end

section
/-! PROOFS, 30_encoding.md. The fields of an assembled word, and the bits of a word as the bits that its instruction uses. -/

namespace Sys2Proof

/-! ### The fields of an assembled word (R62) -/

/-- A field of bits [11:0] of an assembled word is that field of the body. -/
theorem field_join_of_le (c : BitVec 4) (b : BitVec 12) {lo len : Nat} (h : lo + len ≤ 12) :
    field (join 16 c b) lo len = b.extractLsb' lo len := by
  refine field_eq fun i hi => ?_
  have h16 : lo + i < 16 := by omega
  have h12 : lo + i < 12 := by omega
  rw [getLsbD_join, BitVec.getLsbD_extractLsb']
  simp [hi, h16, h12]

/-- A bit of the body of an assembled word. -/
theorem bit_join (c : BitVec 4) (b : BitVec 12) {i : Nat} (h : i < 12) : bit (join 16 c b) i = b.getLsbD i := by
  have h16 : i < 16 := by omega
  rw [bit, getLsbD_join]
  simp [h, h16]

/-- The upper part of a join is what was put there. -/
theorem extractLsb'_join_high {n k w : Nat} (a : BitVec n) (b : BitVec k) (h : k + n = w) :
    (join w a b).extractLsb' k n = a := by
  refine BitVec.eq_of_getLsbD_eq fun i hi => ?_
  have hw : k + i < w := by omega
  rw [BitVec.getLsbD_extractLsb', getLsbD_join]
  simp [hi, hw]

/-- A part of a join that lies in its lower part is that part of it. -/
theorem extractLsb'_join_low {n k w lo len : Nat} (a : BitVec n) (b : BitVec k) (h : lo + len ≤ k) (hw : k ≤ w) :
    (join w a b).extractLsb' lo len = b.extractLsb' lo len := by
  refine BitVec.eq_of_getLsbD_eq fun i hi => ?_
  have h1 : lo + i < w := by omega
  have h2 : lo + i < k := by omega
  rw [BitVec.getLsbD_extractLsb', getLsbD_join, BitVec.getLsbD_extractLsb']
  simp [hi, h1, h2]

/-- The decoder reads back the fields that the encoder put into the word of a well-formed instruction, whatever its opcode bits. -/
theorem decodeAs_encode (c : BitVec 4) {i : Instr} (h : i.wf = true) :
    decodeAs i.opcode (join 16 c (encodeBody i)) = i := by
  cases i with
  | jmp baseR =>
    have h7 : baseR ≠ 7#3 := by simpa [Instr.wf] using h
    simp (disch := omega) only [Instr.opcode, decodeAs, encodeBody, field_join_of_le, extractLsb'_join_low,
      extractLsb'_join_high]
    exact decodeJmp_of_ne h7
  | trap v =>
    have hv : Instr.namedVector v = false := by simpa [Instr.wf] using h
    simp (disch := omega) only [Instr.opcode, decodeAs, encodeBody, field_join_of_le, extractLsb'_join_low,
      BitVec.extractLsb'_eq_self]
    exact decodeTrap_of_unnamed hv
  | ret =>
    simp (disch := omega) [Instr.opcode, decodeAs, encodeBody, field_join_of_le, extractLsb'_join_low, extractLsb'_join_high,
      decodeJmp]
  | getc | out | puts | inp | putsp | halt =>
    simp (disch := omega) [Instr.opcode, decodeAs, encodeBody, field_join_of_le, extractLsb'_join_low, decodeTrap]
  | addReg | addImm | andReg | andImm | not | br | jsr | jsrr | ld | ldi | ldr | lea | st | sti | str | rti | reserved =>
    simp (disch := omega) [Instr.opcode, decodeAs, encodeBody, field_join_of_le, bit_join, extractLsb'_join_low,
      extractLsb'_join_high, -BitVec.getLsbD_eq_getElem]

/-- Settles O2: the opcode bits of the word select the opcode, whose fields are read back from the body. -/
theorem decodeOfEncode : Obligations.DecodeOfEncode := by
  unfold Obligations.DecodeOfEncode
  intro m i hm hi
  rw [encode, decode_join hm]
  exact decodeAs_encode _ hi

/-! ### The decoder's choice by bits [15:12] (R61, R64) -/

/-- JMP and RET have the opcode JMP, and the decoder's are well-formed. -/
theorem decodeJmp_opcode_wf (r : RegIdx) : (decodeJmp r).opcode = .jmp ∧ (decodeJmp r).wf = true := by
  unfold decodeJmp
  split_ifs with h
  · exact ⟨rfl, rfl⟩
  · exact ⟨rfl, decide_eq_true h⟩

/-- The dispatcher's seven answers: TRAP for the vectors that name no service, and a service for each of the six of its table. -/
theorem decodeTrap_cases (v : BitVec 8) :
    (Instr.namedVector v = false ∧ decodeTrap v = .trap v) ∨ (v = 0x20#8 ∧ decodeTrap v = .getc) ∨
    (v = 0x21#8 ∧ decodeTrap v = .out) ∨ (v = 0x22#8 ∧ decodeTrap v = .puts) ∨ (v = 0x23#8 ∧ decodeTrap v = .inp) ∨
    (v = 0x24#8 ∧ decodeTrap v = .putsp) ∨ (v = 0x25#8 ∧ decodeTrap v = .halt) := by
  by_cases h : v.toNat < 0x20 ∨ 0x25 < v.toNat
  · have hv := (namedVector_eq_false_iff v).mpr h
    exact .inl ⟨hv, decodeTrap_of_unnamed hv⟩
  · have hv : v = 0x20#8 ∨ v = 0x21#8 ∨ v = 0x22#8 ∨ v = 0x23#8 ∨ v = 0x24#8 ∨ v = 0x25#8 := by bv_omega
    rcases hv with rfl | rfl | rfl | rfl | rfl | rfl <;> decide

/-- TRAP and the services have the opcode TRAP, and the decoder's are well-formed. -/
theorem decodeTrap_opcode_wf (v : BitVec 8) : (decodeTrap v).opcode = .trap ∧ (decodeTrap v).wf = true := by
  rcases decodeTrap_cases v with ⟨hv, h⟩ | ⟨_, h⟩ | ⟨_, h⟩ | ⟨_, h⟩ | ⟨_, h⟩ | ⟨_, h⟩ | ⟨_, h⟩ <;> rw [h]
  case inl => exact ⟨rfl, by rw [Instr.wf, hv]; rfl⟩
  all_goals exact ⟨rfl, rfl⟩

/-- Reading the fields of an opcode answers a well-formed instruction of that opcode, for every word. -/
theorem decodeAs_opcode_wf (op : Opcode) (w : Word) : (decodeAs op w).opcode = op ∧ (decodeAs op w).wf = true := by
  cases op with
  | add | and | jsr => rw [decodeAs]; split <;> exact ⟨rfl, rfl⟩
  | jmp => exact decodeJmp_opcode_wf _
  | trap => exact decodeTrap_opcode_wf _
  | br | ld | st | ldr | str | rti | not | ldi | sti | reserved | lea => exact ⟨rfl, rfl⟩

/-- Settles O6: decoding reads the fields of the opcode that bits [15:12] select. -/
theorem decodeSelectsByOpcode : Obligations.DecodeSelectsByOpcode := by
  unfold Obligations.DecodeSelectsByOpcode
  exact fun m w => decodeAs_opcode_wf (opcodeAt m (field w 12 4)) w

/-! ### Used bits (R66) -/

/-- The words w' and w agree in the bits of [11:0] that are set in u. -/
def AgreeOn (u : BitVec 12) (w' w : Word) : Prop := field w' 0 12 &&& u = field w 0 12 &&& u

/-- The len bits from lo on, of bits [11:0]. -/
def fieldMask (lo len : Nat) : BitVec 12 := (BitVec.allOnes len).setWidth 12 <<< lo

/-- Which bits a field's mask has. -/
theorem getLsbD_fieldMask {lo len i : Nat} (hi : i < 12) :
    (fieldMask lo len).getLsbD i = true ↔ lo ≤ i ∧ i < lo + len := by
  simp [fieldMask, hi]
  omega

/-- Agreement bit by bit. -/
theorem agreeOn_iff {u : BitVec 12} {w' w : Word} :
    AgreeOn u w' w ↔ ∀ i, i < 12 → u.getLsbD i = true → w'.getLsbD i = w.getLsbD i := by
  have hbit : ∀ (x : Word) (i : Nat), i < 12 → (field x 0 12 &&& u).getLsbD i = (x.getLsbD i && u.getLsbD i) := by
    intro x i hi
    rw [BitVec.getLsbD_and, getLsbD_field, Nat.zero_add, decide_eq_true hi, Bool.true_and]
  constructor
  · intro h i hi hu
    have := congrArg (BitVec.getLsbD · i) h
    simpa only [hbit _ i hi, hu, Bool.and_true] using this
  · intro h
    refine BitVec.eq_of_getLsbD_eq fun i hi => ?_
    rw [hbit _ i hi, hbit _ i hi]
    cases hu : u.getLsbD i
    · simp only [Bool.and_false]
    · rw [h i hi hu]

/-- No used bit at all: any two words agree. -/
theorem agreeOn_zero (w' w : Word) : AgreeOn 0#12 w' w := by simp [AgreeOn]

/-- To agree on two sets of bits is to agree on both. -/
theorem agreeOn_or {u v : BitVec 12} {w' w : Word} : AgreeOn (u ||| v) w' w ↔ AgreeOn u w' w ∧ AgreeOn v w' w := by
  simp only [agreeOn_iff, BitVec.getLsbD_or, Bool.or_eq_true, or_imp, forall_and]

/-- To agree on a field's bits is to have the same field. -/
theorem agreeOn_fieldMask {lo len : Nat} (h : lo + len ≤ 12) {w' w : Word} :
    AgreeOn (fieldMask lo len) w' w ↔ field w' lo len = field w lo len := by
  rw [agreeOn_iff]
  constructor
  · intro ha
    refine field_eq fun i hi => ?_
    rw [getLsbD_field, decide_eq_true hi, Bool.true_and]
    exact ha (lo + i) (by omega) ((getLsbD_fieldMask (by omega)).mpr (by omega))
  · intro he i hi hu
    obtain ⟨hlo, hlen⟩ := (getLsbD_fieldMask hi).mp hu
    have := congrArg (BitVec.getLsbD · (i - lo)) he
    have hd : i - lo < len := by omega
    simpa only [getLsbD_field, hd, decide_true, Bool.true_and, Nat.add_sub_cancel' hlo] using this

/-- A field of one bit is that bit. -/
theorem field_one_eq_iff {i : Nat} {w' w : Word} : field w' i 1 = field w i 1 ↔ bit w' i = bit w i := by
  constructor
  · intro h
    have := congrArg (BitVec.getLsbD · 0) h
    simpa only [getLsbD_field, Nat.zero_lt_one, decide_true, Bool.true_and, Nat.add_zero, bit] using this
  · intro h
    refine field_eq fun j hj => ?_
    obtain rfl : j = 0 := by omega
    simpa only [getLsbD_field, Nat.zero_lt_one, decide_true, Bool.true_and, Nat.add_zero, bit] using h

/-- The body of the decoder's JMP or RET holds the base register, and the bits it uses are that field's. -/
theorem decodeJmp_body (r : RegIdx) :
    encodeBody (decodeJmp r) = join 12 0b000#3 (join 9 r 0b000000#6) ∧ usedBits (decodeJmp r) = fieldMask 6 3 := by
  unfold decodeJmp
  split_ifs with h
  · subst h; decide
  · exact ⟨rfl, rfl⟩

/-- The body of the decoder's TRAP or service holds the vector, and the bits it uses are that field's. -/
theorem decodeTrap_body (v : BitVec 8) :
    encodeBody (decodeTrap v) = join 12 0b0000#4 v ∧ usedBits (decodeTrap v) = fieldMask 0 8 := by
  rcases decodeTrap_cases v with ⟨_, h⟩ | ⟨hv, h⟩ | ⟨hv, h⟩ | ⟨hv, h⟩ | ⟨hv, h⟩ | ⟨hv, h⟩ | ⟨hv, h⟩ <;> rw [h]
  case inl => exact ⟨rfl, rfl⟩
  all_goals subst hv; decide

/-- Different base registers decode differently. -/
theorem decodeJmp_inj {r r' : RegIdx} : decodeJmp r' = decodeJmp r ↔ r' = r := by
  refine ⟨fun h => ?_, fun h => by rw [h]⟩
  have := congrArg (fun i => (encodeBody i).extractLsb' 6 3) h
  simpa (disch := omega) only [decodeJmp_body, extractLsb'_join_low, extractLsb'_join_high] using this

/-- Different vectors decode differently. -/
theorem decodeTrap_inj {v v' : BitVec 8} : decodeTrap v' = decodeTrap v ↔ v' = v := by
  refine ⟨fun h => ?_, fun h => by rw [h]⟩
  have := congrArg (fun i => (encodeBody i).extractLsb' 0 8) h
  simpa (disch := omega) only [decodeTrap_body, extractLsb'_join_low, BitVec.extractLsb'_eq_self] using this

/-- USED BITS: two words of one opcode decode alike exactly when they agree in the bits that the instruction of one of them uses.
The bits are those of the fields that the opcode reads. -/
theorem decodeAs_eq_iff (op : Opcode) (w' w : Word) :
    decodeAs op w' = decodeAs op w ↔ AgreeOn (usedBits (decodeAs op w)) w' w := by
  cases op with
  | rti | reserved => exact iff_of_true rfl (agreeOn_zero w' w)
  | jmp => rw [decodeAs, decodeAs, decodeJmp_inj, (decodeJmp_body _).2, agreeOn_fieldMask (by decide)]
  | trap => rw [decodeAs, decodeAs, decodeTrap_inj, (decodeTrap_body _).2, agreeOn_fieldMask (by decide)]
  | not =>
    rw [show usedBits _ = fieldMask 9 3 ||| fieldMask 6 3 from rfl]
    simp (disch := decide) [decodeAs, agreeOn_or, agreeOn_fieldMask]
  | ld | st | ldi | sti | lea =>
    rw [show usedBits _ = fieldMask 9 3 ||| fieldMask 0 9 from rfl]
    simp (disch := decide) [decodeAs, agreeOn_or, agreeOn_fieldMask]
  | ldr | str =>
    rw [show usedBits _ = fieldMask 9 3 ||| (fieldMask 6 3 ||| fieldMask 0 6) from rfl]
    simp (disch := decide) [decodeAs, agreeOn_or, agreeOn_fieldMask]
  | br =>
    rw [show usedBits _ = fieldMask 11 1 ||| (fieldMask 10 1 ||| (fieldMask 9 1 ||| fieldMask 0 9)) from rfl]
    simp (disch := decide) [decodeAs, agreeOn_or, agreeOn_fieldMask, field_one_eq_iff]
  | add | and =>
    cases hb : bit w 5
    · simp only [decodeAs, hb, Bool.false_eq_true, if_false]
      rw [show usedBits _ = fieldMask 5 1 ||| (fieldMask 9 3 ||| (fieldMask 6 3 ||| fieldMask 0 3)) from rfl]
      cases hb' : bit w' 5 <;> simp (disch := decide) [agreeOn_or, agreeOn_fieldMask, field_one_eq_iff, hb, hb']
    · simp only [decodeAs, hb, if_true]
      rw [show usedBits _ = fieldMask 5 1 ||| (fieldMask 9 3 ||| (fieldMask 6 3 ||| fieldMask 0 5)) from rfl]
      cases hb' : bit w' 5 <;> simp (disch := decide) [agreeOn_or, agreeOn_fieldMask, field_one_eq_iff, hb, hb']
  | jsr =>
    cases hb : bit w 11
    · simp only [decodeAs, hb, Bool.false_eq_true, if_false]
      rw [show usedBits _ = fieldMask 11 1 ||| fieldMask 6 3 from rfl]
      cases hb' : bit w' 11 <;> simp (disch := decide) [agreeOn_or, agreeOn_fieldMask, field_one_eq_iff, hb, hb']
    · simp only [decodeAs, hb, if_true]
      rw [show usedBits _ = fieldMask 11 1 ||| fieldMask 0 11 from rfl]
      cases hb' : bit w' 11 <;> simp (disch := decide) [agreeOn_or, agreeOn_fieldMask, field_one_eq_iff, hb, hb']

/-- Settles O3: the word of the decoded instruction has its opcode's bits and decodes to it again, so the used bits agree. -/
theorem encodeOfDecodeOnUsedBits : Obligations.EncodeOfDecodeOnUsedBits := by
  unfold Obligations.EncodeOfDecodeOnUsedBits
  intro m w hm
  obtain ⟨hop, hwf⟩ := decodeSelectsByOpcode m w
  refine ⟨?_, (decodeAs_eq_iff (opcodeAt m (field w 12 4)) _ w).mp ?_⟩
  · rw [encode, field_join_high, hop, codeOf_opcodeAt hm]
  · have he : decodeAs (decode m w).opcode (encode m (decode m w)) = decode m w := decodeAs_encode _ hwf
    rwa [hop] at he

/-- Settles O4: equal opcode bits select one opcode, and agreement in the used bits gives one instruction of it. -/
theorem unusedBitsIgnored : Obligations.UnusedBitsIgnored := by
  unfold Obligations.UnusedBitsIgnored
  intro m w w' hop hused
  rw [decode, hop]
  exact (decodeAs_eq_iff _ w' w).mpr hused

/-! ### The rows of the opcode table (R64) -/

/-- Words that agree in their opcode bits and in one more field agree in these bits. -/
theorem and_eq_of_fields {w w' : Word} {lo len : Nat} (hl : lo + len ≤ 12) (hop : field w' 12 4 = field w 12 4)
    (hf : field w' lo len = field w lo len) :
    w' &&& join 16 0xF#4 (fieldMask lo len) = w &&& join 16 0xF#4 (fieldMask lo len) := by
  have hbits : ∀ i, i < 16 → (join 16 0xF#4 (fieldMask lo len)).getLsbD i = true → w'.getLsbD i = w.getLsbD i := by
    intro i hi hm
    rcases Nat.lt_or_ge i 12 with h | h
    · rw [getLsbD_join, if_pos h, Bool.and_eq_true] at hm
      exact agreeOn_iff.mp ((agreeOn_fieldMask hl).mpr hf) i h hm.2
    · have := congrArg (BitVec.getLsbD · (i - 12)) hop
      have h4 : i - 12 < 4 := by omega
      simpa only [getLsbD_field, h4, decide_true, Bool.true_and, Nat.add_sub_cancel' h] using this
  refine BitVec.eq_of_getLsbD_eq fun i hi => ?_
  rw [BitVec.getLsbD_and, BitVec.getLsbD_and]
  cases hm : (join 16 0xF#4 (fieldMask lo len)).getLsbD i
  · simp only [Bool.and_false]
  · rw [hbits i hi hm]

/-- A row of the table has no bit outside its mask. -/
theorem tableRow_and (i : Instr) : (tableRow i).1 &&& (tableRow i).2 = (tableRow i).1 := by
  cases i <;> (simp only [tableRow]; decide)

/-- A row of the table has its opcode's default number in bits [15:12]. -/
theorem field_tableRow (i : Instr) : field (tableRow i).1 12 4 = codeOf lc3OpcodeMap i.opcode := by
  cases i <;> (simp only [tableRow, Instr.opcode]; decide)

/-- A word that has the default number of an instruction's opcode, and one more field of its row, matches the row if these are the bits
of the row's mask. -/
theorem and_tableRow {w : Word} {i : Instr} (lo len : Nat) (hl : lo + len ≤ 12)
    (hmask : (tableRow i).2 = join 16 0xF#4 (fieldMask lo len)) (hc : field w 12 4 = codeOf lc3OpcodeMap i.opcode)
    (hf : field w lo len = field (tableRow i).1 lo len) : w &&& (tableRow i).2 = (tableRow i).1 := by
  rw [← tableRow_and, hmask]
  exact and_eq_of_fields hl (hc.trans (field_tableRow i).symm) hf

/-- A word with an opcode's default number matches the row of the instruction that the opcode reads: the bits of the mask are the opcode's
and, where the opcode has more than one row, those of the field that chooses between them. -/
theorem and_tableRow_decodeAs (op : Opcode) (w : Word) (hc : field w 12 4 = codeOf lc3OpcodeMap op) :
    w &&& (tableRow (decodeAs op w)).2 = (tableRow (decodeAs op w)).1 := by
  have h0 : ∀ v : Word, field w 0 0 = field v 0 0 := fun v => Subsingleton.elim _ _
  cases op with
  | add | and =>
    rw [decodeAs]
    split <;> next hb =>
      exact and_tableRow 5 1 (by decide) rfl hc (field_one_eq_iff.mpr (by simpa [tableRow, bit] using hb))
  | jsr =>
    rw [decodeAs]
    split <;> next hb =>
      exact and_tableRow 11 1 (by decide) rfl hc (field_one_eq_iff.mpr (by simpa [tableRow, bit] using hb))
  | jmp =>
    rw [decodeAs, decodeJmp]
    split
    next h7 => exact and_tableRow 6 3 (by decide) rfl hc h7
    next => exact and_tableRow 0 0 (by decide) rfl hc (h0 _)
  | trap =>
    rw [decodeAs]
    rcases decodeTrap_cases (field w 0 8) with ⟨_, h⟩ | ⟨hv, h⟩ | ⟨hv, h⟩ | ⟨hv, h⟩ | ⟨hv, h⟩ | ⟨hv, h⟩ | ⟨hv, h⟩ <;> rw [h]
    case inl => exact and_tableRow 0 0 (by decide) rfl hc (h0 _)
    all_goals exact and_tableRow 0 8 (by decide) rfl hc hv
  | br | ld | st | ldr | str | rti | not | ldi | sti | reserved | lea =>
    exact and_tableRow 0 0 (by decide) rfl hc (h0 _)

/-- Settles O5: the opcode bits of a word are the default number of the opcode that they select. -/
theorem decodedWordMatchesTableRow : Obligations.DecodedWordMatchesTableRow := by
  unfold Obligations.DecodedWordMatchesTableRow
  exact fun w => and_tableRow_decodeAs _ w (codeOf_opcodeAt (by decide) (field w 12 4)).symm

/-- Settles O1: each word is decoded by evaluation. -/
theorem sampleWordsDecode : Obligations.SampleWordsDecode := by
  unfold Obligations.SampleWordsDecode
  decide

end Sys2Proof
end

section
/-! PROOFS, 60_exceptions.md R154. What every step and every move of the host keeps: the parameters (00_scope.md R6), the invariant of the
state (10_state.md R29 to R34), and a Fatal. -/

namespace Sys2Proof.Machine

/-! ### The parameters (00_scope.md R6) -/

/-- The input write leaves the parameters, memory and the run state alone. -/
@[simp] theorem cfg_writeInput (b : Byte) (s : State) : (writeInput b s).cfg = s.cfg := by simp [writeInput_eq]
@[simp] theorem mem_writeInput (b : Byte) (s : State) : (writeInput b s).mem = s.mem := by simp [writeInput_eq]
@[simp] theorem stopCause_writeInput (b : Byte) (s : State) : (writeInput b s).stopCause = s.stopCause := by simp [writeInput_eq]

/-- No instruction changes a parameter. -/
theorem exec_cfg {i : Instr} {s t : State} (h : exec i s = .next t) : t.cfg = s.cfg := by
  cases exec_effect h with
  | result _ _ _ _ _ _ hu => simpa using hu.cfg
  | store _ _ _ _ _ _ _ hu => simpa using hu.cfg
  | jump | call | output | wait | halt | unknownVector | unimplemented => rfl

/-- No step changes a parameter. -/
theorem step_cfg {s t : State} (h : step s = .next t) : t.cfg = s.cfg := by
  rcases step_cases s with ⟨_, hs⟩ | ⟨k, _, _, hs⟩ | ⟨_, _, hs⟩ <;> rw [hs] at h
  · cases h; rfl
  · rcases resumeInput_cases k s with ⟨_, h'⟩ | ⟨b, rest, _, h'⟩ <;> rw [h'] at h <;> cases h <;> simp
  · rw [exec_cfg h, cfg_fetch]

/-- No move of the host changes a parameter. -/
theorem hostMove_cfg {m : HostMove} {s t : State} (h : hostMove m s = .next t) : t.cfg = s.cfg := by
  rcases hostMove_cases h with ⟨_, _, rfl⟩ | ⟨_, _, rfl⟩ | ⟨_, _, rfl⟩ | ⟨_, _, rfl⟩ | ⟨a, _, _, _, rfl⟩ | ⟨_, _, _, _, _, rfl⟩
  case inr.inr.inr.inr.inl => exact cfg_intercept s a
  all_goals rfl

/-! ### The invariant (10_state.md R29, R32, 20_memory.md R40) -/

/-- Between instructions, the invariant asks for well-formed memory and parameters, and no stop cause while running. -/
theorem State.inv_of_idle {s : State} (hm : s.mem.wf = true) (hc : s.cfg.wf = true)
    (hs : s.running = true → s.stopCause = .none) (hp : s.phase = .idle) : s.Inv :=
  ⟨hm, hc, hs, fun _ => hp, fun h => absurd hp h⟩

/-- Every instruction keeps memory canonical. -/
theorem exec_wf {i : Instr} {s t : State} (hm : s.mem.wf = true) (h : exec i s = .next t) : t.mem.wf = true := by
  cases exec_effect h with
  | result _ _ _ _ _ _ hu => exact hu.wf hm
  | store a r _ _ _ _ _ hu => exact State.wf_setWord (hu.wf hm) a _
  | jump | call | output | wait | halt | unknownVector | unimplemented => exact hm

/-- An instruction of a running core that is between instructions leads to a state that meets the invariant: it goes on in phase Idle,
waits with its link in R7, or stops with a cause. -/
theorem exec_inv {i : Instr} {s t : State} (hm : s.mem.wf = true) (hc : s.cfg.wf = true) (hr : s.running = true)
    (hs : s.stopCause = .none) (hp : s.phase = .idle) (h : exec i s = .next t) : t.Inv := by
  have hm' : t.mem.wf = true := exec_wf hm h
  have hc' : t.cfg.wf = true := by rw [exec_cfg h, hc]
  cases exec_effect h with
  | result _ _ _ _ _ _ hu => exact State.inv_of_idle hm' hc' (fun _ => hu.stopCause.trans hs) (hu.phase.trans hp)
  | store _ _ _ _ _ _ _ hu => exact State.inv_of_idle hm' hc' (fun _ => hu.stopCause.trans hs) (hu.phase.trans hp)
  | jump | call | output => exact State.inv_of_idle hm' hc' (fun _ => hs) hp
  | halt | unknownVector | unimplemented => exact State.inv_of_idle hm' hc' (fun hr' => nomatch hr') hp
  | wait => exact ⟨hm', hc', fun _ => hs, fun hr' => by simp [hr] at hr', fun _ => by simp⟩

/-- A resumed service keeps the invariant: it is held, or it ends in phase Idle. -/
theorem resumeInput_inv {k : InputService} {s t : State} (hi : s.Inv) (h : resumeInput k s = .next t) : t.Inv := by
  rcases resumeInput_cases k s with ⟨_, h'⟩ | ⟨b, rest, _, h'⟩ <;> rw [h'] at h <;> cases h
  · exact hi
  · obtain ⟨hm, hc, hs, _, _⟩ := hi
    exact State.inv_of_idle (by simpa using hm) (by simpa using hc) (by simpa using hs) rfl

/-- STEP LEMMA: every step keeps the invariant. -/
theorem step_inv {s t : State} (hi : s.Inv) (h : step s = .next t) : t.Inv := by
  rcases step_cases s with ⟨_, hs⟩ | ⟨k, _, _, hs⟩ | ⟨hr, hp, hs⟩ <;> rw [hs] at h
  · cases h; exact hi
  · exact resumeInput_inv hi h
  · obtain ⟨hm, hc, hstop, _, _⟩ := hi
    exact exec_inv (wf_fetch hm) (by simpa using hc) (by simpa using hr) (by simpa using hstop hr) (by simpa using hp) h

/-- Every move of the host keeps the invariant: it uses memory only while the core is stopped and in phase Idle, and a stop request
abandons a waiting service. -/
theorem hostMove_inv {m : HostMove} {s t : State} (hi : s.Inv) (h : hostMove m s = .next t) : t.Inv := by
  obtain ⟨hm, hc, hs, hp, hlink⟩ := hi
  rcases hostMove_cases h with
    ⟨_, _, rfl⟩ | ⟨_, _, rfl⟩ | ⟨_, _, rfl⟩ | ⟨_, _, rfl⟩ | ⟨a, _, _, hidle, rfl⟩ | ⟨a, v, _, _, hidle, rfl⟩
  · exact ⟨hm, hc, hs, hp, hlink⟩
  · exact ⟨hm, hc, hs, hp, hlink⟩
  · exact State.inv_of_idle hm hc (fun hr => nomatch hr) rfl
  · exact ⟨hm, hc, fun _ => rfl, (fun hr => nomatch hr), hlink⟩
  · exact State.inv_of_idle (wf_intercept s a hm) (by simpa using hc) (by simpa using hs) (by simpa using hidle)
  · exact State.inv_of_idle (State.wf_setWord hm a v) hc hs hidle

/-! ### Runs (60_exceptions.md R154) -/

/-- INDUCTION OVER RUNS: what every event keeps holds after every run. -/
theorem runEvents_keeps {P : State → Prop} (hP : ∀ (e : Event) (s t : State), P s → transition e s = .next t → P t)
    {es : List Event} {s t : State} (hs : P s) (h : runEvents es s = .next t) : P t := by
  induction es generalizing s with
  | nil => cases h; exact hs
  | cons e es ih =>
    rw [runEvents] at h
    split at h
    next u hu => exact ih (hP e s u hs hu) h
    next => cases h
    next => cases h

/-- Every event keeps the invariant. -/
theorem transition_inv (e : Event) (s t : State) (hi : s.Inv) (h : transition e s = .next t) : t.Inv := by
  cases e with
  | step => exact step_inv hi h
  | host m => exact hostMove_inv hi h

/-! ### After a Fatal (10_state.md R29) -/

/-- t has what a Fatal of s fixes: the core is stopped with the Fatal's cause, and registers, PC, COND and output are those of s. -/
def StuckAt (s : State) (k : FatalKind) (w a : Word) (t : State) : Prop :=
  t.running = false ∧ t.stopCause = .fatal k w a ∧ t.regs = s.regs ∧ t.pc = s.pc ∧ t.cond = s.cond ∧ t.output = s.output

/-- No event leads out of a Fatal: a step does nothing, the stop request neither, and the start move is refused; the host's other moves
touch memory and the input only. -/
theorem transition_stuckAt {s : State} {k : FatalKind} {w a : Word} (e : Event) (t u : State) (hf : StuckAt s k w a t)
    (h : transition e t = .next u) : StuckAt s k w a u := by
  obtain ⟨hr, hc, hregs, hpc, hcond, hout⟩ := hf
  cases e with
  | step =>
    rw [transition, step_stopped hr] at h
    cases h
    exact ⟨hr, hc, hregs, hpc, hcond, hout⟩
  | host m =>
    rcases hostMove_cases h with ⟨_, _, rfl⟩ | ⟨_, _, rfl⟩ | ⟨_, hn, _⟩ | ⟨_, hn, _⟩ | ⟨b, _, _, _, rfl⟩ | ⟨b, v, _, _, _, rfl⟩
    · exact ⟨hr, hc, hregs, hpc, hcond, hout⟩
    · exact ⟨hr, hc, hregs, hpc, hcond, hout⟩
    · exact absurd hc (hn k w a)
    · exact absurd hc (hn k w a)
    · simpa [StuckAt] using ⟨hr, hc, hregs, hpc, hcond, hout⟩
    · exact ⟨hr, hc, hregs, hpc, hcond, hout⟩

/-- A core stopped by a Fatal is no successful end (92_eei_decisions.md D19). -/
theorem not_successful_of_fatal {s : State} {k : FatalKind} {w a : Word} (hr : s.running = false)
    (hc : s.stopCause = .fatal k w a) : ¬ s.Successful := by
  simp [State.status, hr, hc]

end Sys2Proof.Machine

namespace Sys2Proof

open Machine

/-- Settles O51: by the shapes of a next state of a step and of a move of the host. -/
theorem parametersNeverChange : Obligations.ParametersNeverChange := by
  unfold Obligations.ParametersNeverChange
  intro e s t h
  cases e with
  | step => exact step_cfg h
  | host m => exact hostMove_cfg h

/-- Settles O52: the step lemma. -/
theorem stepKeepsInvariant : Obligations.StepKeepsInvariant := by
  unfold Obligations.StepKeepsInvariant
  exact fun _ _ => step_inv

/-- Settles O53: the induction over runs, with the step lemma and its like for the host's moves. -/
theorem runsKeepInvariant : Obligations.RunsKeepInvariant := by
  unfold Obligations.RunsKeepInvariant
  exact fun _ _ _ => runEvents_keeps transition_inv

/-- Settles O54: a fresh core is stopped, in phase Idle, with an empty memory. -/
theorem launchMeetsInvariant : Obligations.LaunchMeetsInvariant := by
  unfold Obligations.LaunchMeetsInvariant
  have hlaunch : ∀ (c : Config) (input : List Byte), c.wf = true → (State.launch c input).Inv :=
    fun _ _ hc => State.inv_of_idle Memory.wf_nil hc (fun hr => nomatch hr) rfl
  exact ⟨hlaunch, hlaunch defaultConfig [] (by decide)⟩

/-- Settles O43: the induction over runs, with the states that a Fatal has stuck; these are stopped, so no run from one diverges. -/
theorem fatalIsSticky : Obligations.FatalIsSticky := by
  unfold Obligations.FatalIsSticky
  intro es s t k w a hr hc h
  obtain ⟨hr', hc', hregs, hpc, hcond, hout⟩ :=
    runEvents_keeps (P := StuckAt s k w a) transition_stuckAt ⟨hr, hc, rfl, rfl, rfl, rfl⟩ h
  exact ⟨hr', hc', hregs, hpc, hcond, hout, not_successful_of_fatal hr' hc', not_diverging_of_stopped hr'⟩

end Sys2Proof
end

section
/-! PROOFS, 41_control.md R91 to R94. JMP, RET and JSRR: jumps through a register. -/

namespace Sys2Proof

/-- A word of opcode JSR with bit 11 clear is the call through a register (41_control.md R94). -/
theorem decode_jsrr {m : OpcodeMap} {w : Word} (h : opcodeAt m (field w 12 4) = .jsr) (hb : bit w 11 = false) :
    decode m w = .jsrr (field w 6 3) := by
  rw [decode_of_opcodeAt h, decodeAs, hb]
  rfl

end Sys2Proof

namespace Sys2Proof.Machine

/-- JMP is one PC write, of the base register's value (R91). -/
theorem exec_jmp (baseR : RegIdx) (s : State) : exec (.jmp baseR) s = .next (s.setPc (s.reg baseR)) := rfl

/-- RET is JMP R7 (R92). -/
theorem exec_ret (s : State) : exec .ret s = exec (.jmp 7#3) s := rfl

/-- The target of JSRR: the base register's value before the link, but the link itself if BaseR is R7 and is read after it (R94, D8). -/
theorem jsrr_target (baseR : RegIdx) (s : State) :
    (if s.cfg.jsrrLinkFirst then (link s).reg baseR else s.reg baseR) =
      if baseR = 7#3 ∧ s.cfg.jsrrLinkFirst = true then s.pc else s.reg baseR := by
  rw [reg_link]
  cases s.cfg.jsrrLinkFirst <;> simp

/-- JSRR links, then writes PC (R94). -/
theorem exec_jsrr (baseR : RegIdx) (s : State) :
    exec (.jsrr baseR) s =
      .next ((link s).setPc (if baseR = 7#3 ∧ s.cfg.jsrrLinkFirst = true then s.pc else s.reg baseR)) := by
  rw [← jsrr_target]
  rfl

end Sys2Proof.Machine

namespace Sys2Proof

open Machine

/-- Settles O14: JMP is one PC write, RET is JMP R7, and the body of RET's word is R7 in the base field. -/
theorem jumpGoesToBase : Obligations.JumpGoesToBase := by
  unfold Obligations.JumpGoesToBase
  refine ⟨fun _ _ => decode_of_opcodeAt, fun baseR s => ⟨_, exec_jmp baseR s, rfl, onlyPc_setPc _ s⟩,
    fun s => ⟨_, exec_jmp 7#3 s, rfl, onlyPc_setPc _ s, exec_ret s⟩, fun m => ?_⟩
  have hbody : encodeBody .ret = 0x1C0#12 := by decide
  rw [encode, hbody, Instr.opcode]

/-- Settles O16: JSRR is the link and one PC write, of the base register's value in the order of `JSRR_LINK_FIRST`. -/
theorem jsrrLinksAndJumps : Obligations.JsrrLinksAndJumps := by
  unfold Obligations.JsrrLinksAndJumps
  refine ⟨fun _ _ => decode_jsrr, fun baseR s => ⟨_, exec_jsrr baseR s, ?_, rfl, onlyPcAndLink_setPc _ s⟩⟩
  rw [State.reg_setPc, reg_link, if_pos rfl]

end Sys2Proof
end

section
/-! PROOFS, 20_memory.md R41 to R56. The two keyboard words, and what a store is seen by. -/

namespace Sys2Proof.Machine

/-! ### The keyboard words (R41, R43, R44) -/

/-- The read of `KBSR_ADDR` is intercepted by a poll (R41). -/
theorem intercept_kbsr (s : State) : intercept s s.cfg.kbsrAddr = kbsrPoll s := by simp [intercept]

/-- At `KBSR_ADDR`, `MemRead` polls and returns the word that the poll stored there (R41, R43). -/
theorem memRead_kbsr (s : State) : memRead s s.cfg.kbsrAddr = ((kbsrPoll s).word s.cfg.kbsrAddr, kbsrPoll s) := by
  rw [memRead, intercept_kbsr]

/-- A poll that finds a byte sets the status word, latches the byte in the data word and takes it from the input (R43). -/
theorem kbsrPoll_pending {s : State} {b : Byte} {rest : List Byte} (hi : s.input = b :: rest)
    (hk : Config.keyPending s.draws = true) :
    kbsrPoll s = (((s.setInput rest).drawn).setWord s.cfg.kbsrAddr 0x8000#16).setWord s.cfg.kbdrAddr (latched b) := by
  rw [kbsrPoll, kbPoll_pending hi hk]
  rfl

/-- A poll that finds nothing clears the status word (R43). -/
theorem kbsrPoll_idle {s : State} (h : s.input = [] ∨ Config.keyPending s.draws = false) :
    kbsrPoll s = s.drawn.setWord s.cfg.kbsrAddr 0x0000#16 := by
  rw [kbsrPoll, kbPoll_idle h]
  rfl

/-- A poll for which it is not so that the stream has a byte and the host calls it pending finds nothing. -/
theorem poll_idle_of_not {s : State}
    (h : ∀ (b : Byte) (rest : List Byte), s.input = b :: rest → Config.keyPending s.draws = true → False) :
    s.input = [] ∨ Config.keyPending s.draws = false := by
  cases hi : s.input with
  | nil => exact .inl rfl
  | cons b rest => exact .inr (by simpa using h b rest hi)

section Poll

variable {s : State} (hm : s.mem.wf = true)
include hm

/-- What a poll that finds a byte leaves: the status word set, the byte latched in the data word and taken from the input. -/
theorem word_kbsrPoll_pending {b : Byte} {rest : List Byte} (hi : s.input = b :: rest) (hk : Config.keyPending s.draws = true)
    (x : Word) :
    (kbsrPoll s).word x = if x = s.cfg.kbdrAddr then latched b else if x = s.cfg.kbsrAddr then 0x8000#16 else s.word x := by
  have hm1 : (((s.setInput rest).drawn).setWord s.cfg.kbsrAddr 0x8000#16).mem.wf = true :=
    State.wf_setWord (s := (s.setInput rest).drawn) hm _ _
  rw [kbsrPoll_pending hi hk, State.word_setWord hm1, State.word_setWord (s := (s.setInput rest).drawn) hm]
  rfl

/-- What a poll that finds nothing leaves: the status word cleared, every other word as it was. -/
theorem word_kbsrPoll_idle (h : s.input = [] ∨ Config.keyPending s.draws = false) (x : Word) :
    (kbsrPoll s).word x = if x = s.cfg.kbsrAddr then 0x0000#16 else s.word x := by
  rw [kbsrPoll_idle h, State.word_setWord (s := s.drawn) hm]
  rfl

end Poll

/-! ### What a store is seen by, and what it leaves (R42, R49, R56) -/

/-- A fetch from a plain word reads that word (R56). -/
theorem instr_fetch_of_ne {s : State} (h : s.pc ≠ s.cfg.kbsrAddr) : (fetch s).instr = s.word s.pc := by
  simp [fetch_eq, h]

/-- A fetch sees the store made just before it at its own address, unless it polls there (R56, D26). -/
theorem instr_fetch_of_stored {s t : State} {a v : Word} (hs : OnlyStored a v s t) (hpc : t.pc = a) (ha : a ≠ s.cfg.kbsrAddr) :
    (fetch t).instr = v := by
  obtain ⟨hword, _, _, _, ⟨hcfg, _⟩, _⟩ := hs
  rw [instr_fetch_of_ne (by rwa [hpc, hcfg]), hpc, hword, if_pos rfl]

/-- ST, STI and STR are a `MemWrite` of SR at their store address, in a state that at most the pointer's read has changed
(42_load_store.md R104 to R106). -/
theorem exec_stores {i : Instr} {s t : State} {sr : RegIdx} {a : Word} (h : exec i s = .next t)
    (hi : (∃ off, i = .st sr off) ∨ (∃ off, i = .sti sr off) ∨ ∃ b off, i = .str sr b off) (ha : storeAddress i s = some a) :
    ∃ u n, Reads s n u ∧ t = memWrite u a (s.reg sr) := by
  rcases hi with ⟨off, rfl⟩ | ⟨off, rfl⟩ | ⟨b, off, rfl⟩
  · rw [exec_st] at h
    cases h; cases ha
    exact ⟨s, 0, .none, rfl⟩
  · rw [exec_sti] at h
    cases h; cases ha
    exact ⟨_, 1, .more _ .none, rfl⟩
  · rw [exec_str] at h
    cases h; cases ha
    exact ⟨s, 0, .none, rfl⟩

/-- No instruction changes a word that it does not store to, but for the two keyboard words (R49). -/
theorem exec_word {i : Instr} {s t : State} {a : Word} (hm : s.mem.wf = true) (h : exec i s = .next t)
    (ha : storeAddress i s ≠ some a) (h1 : a ≠ s.cfg.kbsrAddr) (h2 : a ≠ s.cfg.kbdrAddr) : t.word a = s.word a := by
  cases exec_effect h with
  | result _ _ _ _ _ _ hu => exact hu.word hm h1 h2
  | store b r _ _ _ hb _ hu =>
    have hab : a ≠ b := fun e => ha (e ▸ hb)
    rw [State.word_setWord (hu.wf hm), if_neg hab, hu.word hm h1 h2]
  | jump | call | output | wait | halt | unknownVector | unimplemented => rfl

end Sys2Proof.Machine

namespace Sys2Proof

open Machine

/-- Settles O25: `KBSR_ADDR` is the one address whose read is intercepted. -/
theorem memReadInterceptsStatusOnly : Obligations.MemReadInterceptsStatusOnly := by
  unfold Obligations.MemReadInterceptsStatusOnly
  intro s a
  refine ⟨memRead_of_ne, fun ha => ?_⟩
  rw [ha, memRead_kbsr]
  exact ⟨rfl, rfl⟩

/-- Settles O26: the poll's frame is that of the intercepted read; its two arms differ in the keyboard words and the input. -/
theorem statusReadPollsKeyboard : Obligations.StatusReadPollsKeyboard := by
  unfold Obligations.StatusReadPollsKeyboard
  intro s hm hne
  refine ⟨_, _, memRead_kbsr s, ?_, ?_⟩
  · split
    next b rest hi hk =>
      have hword := word_kbsrPoll_pending hm hi hk
      have hbyte : (latched b).toNat = b.toNat := by simp [latched]; omega
      refine ⟨?_, ?_, ?_, by rw [kbsrPoll_pending hi hk]; rfl⟩
      · rw [hword, if_neg hne, if_pos rfl]
      · rw [hword, if_neg hne, if_pos rfl]
      · rw [hword, if_pos rfl, hbyte]
    next hno =>
      have hidle := poll_idle_of_not hno
      have hword := word_kbsrPoll_idle hm hidle
      refine ⟨?_, ?_, ?_, by rw [kbsrPoll_idle hidle]; rfl⟩
      · rw [hword, if_pos rfl]
      · rw [hword, if_pos rfl]
      · rw [hword, if_neg hne.symm]
  · rw [← intercept_kbsr]
    refine ⟨fun x => word_intercept s _ hm, fun r => reg_intercept s _ r, ?_⟩
    simp [SameControl]

/-- Settles O27: a read of the data word is plain; after a store, a poll or a launch it gives what these left there. -/
theorem dataReadReturnsLastLatched : Obligations.DataReadReturnsLastLatched := by
  unfold Obligations.DataReadReturnsLastLatched
  intro s hm hne
  have hread : ∀ t : State, t.cfg = s.cfg → memRead t s.cfg.kbdrAddr = (t.word s.cfg.kbdrAddr, t) :=
    fun t ht => memRead_of_ne (by rw [ht]; exact hne.symm)
  refine ⟨hread s rfl, fun v => ?_, ?_, fun c input => State.word_launch c input _⟩
  · rw [hread (memWrite s _ v) rfl]
    exact (State.word_setWord hm _ v _).trans (if_pos rfl)
  · rw [hread _ (by simp), memRead_kbsr]
    split
    next b rest hi hk => exact (word_kbsrPoll_pending hm hi hk _).trans (if_pos rfl)
    next hno => exact (word_kbsrPoll_idle hm (poll_idle_of_not hno) _).trans (if_neg hne.symm)

/-- Settles O28: the fetch reads a plain word, the store's frame says what that word is, and each storing instruction is a `MemWrite`. -/
theorem storeSeenByNextFetch : Obligations.StoreSeenByNextFetch := by
  unfold Obligations.StoreSeenByNextFetch
  refine ⟨fun s a v hm ha => ?_, fun i s t sr hm h hi hsa ha => ?_⟩
  · exact instr_fetch_of_ne (s := (memWrite s a v).setPc a) ha |>.trans ((State.word_setWord hm a v a).trans (if_pos rfl))
  · obtain ⟨u, n, hu, rfl⟩ := exec_stores h hi hsa
    exact instr_fetch_of_stored (onlyStored_memWrite (hu.wf hm) _ _) hu.pc (by rwa [hu.cfg])

/-- Settles O29: by the shapes of a next state of `exec`. -/
theorem memoryChangesOnlyAtStores : Obligations.MemoryChangesOnlyAtStores := by
  unfold Obligations.MemoryChangesOnlyAtStores
  exact fun _ _ _ _ => exec_word

end Sys2Proof
end

section
/-! PROOFS, 43_trap.md R120 to R127. The dispatcher and the six services. -/

namespace Sys2Proof.Machine

/-! ### The services after the link (R122 to R127) -/

/-- The link changes R7 alone. -/
theorem sameRegsBut_link (s : State) : SameRegsBut 7#3 s (link s) := fun r hr => by rw [reg_link, if_neg hr]

/-- OUT links, then emits R0's low byte (R123). -/
theorem exec_out (s : State) : exec .out s = .next ((link s).emit [lowByte (s.reg 0#3)]) := by
  rw [← sameRegsBut_link s 0#3 (by decide)]
  rfl

/-- GETC links, then waits (R122). -/
theorem exec_getc (s : State) : exec .getc s = .next ((link s).setPhase (.waitIn .getc)) := rfl

/-- IN links, emits its prompt, then waits (R125). -/
theorem exec_inp (s : State) : exec .inp s = .next (((link s).emit s.cfg.inPrompt).setPhase (.waitIn .inp)) := rfl

/-- HALT links, emits its banner and stops the core; PC is a free value (R127). -/
theorem exec_halt (s : State) : exec .halt s =
    .next (((((link s).emit s.cfg.haltBanner).setRun false .halt).setPc (Config.pcAfterHalt s.draws)).drawn) := rfl

/-- PUTS is the string service of low bytes, after the link (R124). -/
theorem exec_puts (s : State) : exec .puts s = writeString (fun w => [lowByte w]) (link s) := rfl

/-- PUTSP is the string service of packed bytes, after the link (R126). -/
theorem exec_putsp (s : State) : exec .putsp s = writeString packedBytes (link s) := rfl

/-- TRAP with a vector of the dispatcher's table is the service of that vector (R121). -/
theorem exec_trap_named (s : State) :
    exec (.trap 0x20#8) s = exec .getc s ∧ exec (.trap 0x21#8) s = exec .out s ∧ exec (.trap 0x22#8) s = exec .puts s ∧
    exec (.trap 0x23#8) s = exec .inp s ∧ exec (.trap 0x24#8) s = exec .putsp s ∧ exec (.trap 0x25#8) s = exec .halt s :=
  ⟨rfl, rfl, rfl, rfl, rfl, rfl⟩

/-- The byte that arrives in a waiting service: taken from the input, echoed by IN only, and put in R0; COND follows R0 only under
`TRAP_INPUT_SETS_COND` (R122, R125, D9). -/
theorem resumeInput_of_byte (k : InputService) {s : State} {b : Byte} {rest : List Byte} (hi : s.input = b :: rest) :
    resumeInput k s = .next ((((((s.setInput rest).emit (echoOf k b)).setReg 0#3 (zext b)).setCond
      (if s.cfg.trapInputSetsCond then condOf (zext b) else s.cond))).setPhase .idle) := by
  simp only [resumeInput, hi, writeInput_eq]
  rfl

/-- t is s after the byte b has arrived, with rest left in the input and echo written: R0 is the byte, COND follows it only under
`TRAP_INPUT_SETS_COND`, and the core goes on from the PC it waited at. -/
def Delivered (b : Byte) (rest echo : List Byte) (s t : State) : Prop :=
  (t.reg 0#3).toNat = b.toNat ∧ SameRegsBut 0#3 s t ∧ t.input = rest ∧ t.output = s.output ++ echo ∧
    t.phase = .idle ∧ t.pc = s.pc ∧ SameMemory s t ∧ t.cfg = s.cfg ∧ t.running = true ∧ t.stopCause = s.stopCause ∧
    t.instr = s.instr ∧ t.draws = s.draws ∧
    (s.cfg.trapInputSetsCond = false → t.cond = s.cond) ∧ (s.cfg.trapInputSetsCond = true → FlagsOf t.cond (t.reg 0#3))

/-- A waiting service that finds a byte delivers it. -/
theorem step_delivers {k : InputService} {s : State} {b : Byte} {rest : List Byte} (hr : s.running = true)
    (hp : s.phase = .waitIn k) (hi : s.input = b :: rest) : ∃ t, step s = .next t ∧ Delivered b rest (echoOf k b) s t := by
  have hbyte : (zext b).toNat = b.toNat := by simp [zext]; omega
  refine ⟨_, (step_waiting hr hp).trans (resumeInput_of_byte k hi), ?_⟩
  refine ⟨by simpa using hbyte, fun r hr0 => ?_, rfl, rfl, rfl, rfl, fun _ => rfl, rfl, hr, rfl, rfl, rfl, fun hc => ?_, fun hc => ?_⟩
  · simp [hr0]
  · simp [hc]
  · simpa [hc] using flagsOf_condOf (zext b)

/-! ### The string services (R124, R126) -/

/-- A string service emits the bytes of a string that stands in plain memory, and nothing else changes but the link. -/
theorem writeString_of_stringAt (f : Word → List Byte) {s : State} {ws : List Word} (h : StringAt s (s.reg 0#3) ws) :
    ∃ t, writeString f (link s) = .next t ∧ OnlyLinkAndOutput (ws.flatMap f) s t := by
  refine ⟨_, ?_, onlyLinkAndOutput_emit (ws.flatMap f) s⟩
  rw [writeString, stringWords_link, stringWords_of_stringAt h]

/-- A string service refuses a string that reaches a device word before its zero word (20_memory.md R48). -/
theorem writeString_of_stringBlocked (f : Word → List Byte) {s : State} {ws : List Word} (h : StringBlocked s (s.reg 0#3) ws) :
    writeString f (link s) = .refused .stringReachesDevice := by
  rw [writeString, stringWords_link, stringWords_of_stringBlocked h]

/-- PUTSP's bytes of one word as numbers. -/
theorem packedBytes_eq (w : Word) : packedBytes w = BitVec.ofNat 8 (w.toNat % 256) ::
    (if w.toNat / 256 = 0 then [] else [BitVec.ofNat 8 (w.toNat / 256)]) := by
  have h0 : highByte w = 0x00#8 ↔ w.toNat / 256 = 0 := by
    rw [highByte_eq, BitVec.toNat_inj.symm]
    simp
    omega
  by_cases h : w.toNat / 256 = 0
  · rw [packedBytes, if_pos (h0.mpr h), if_pos h, lowByte_eq]
  · rw [packedBytes, if_neg (mt h0.mp h), if_neg h, lowByte_eq, highByte_eq]

/-- Every walk ends: within as many words as stand before the first device word, non-zero words lead to a zero word or to that
device word (20_memory.md R48). -/
theorem string_or_blocked (s : State) : ∀ (n : Nat) (a : Word), wordsBeforeDevice s.cfg a = n →
    ∃ ws : List Word, ws.length ≤ n ∧ (StringAt s a ws ∨ StringBlocked s a ws) := by
  intro n
  induction n with
  | zero =>
    intro a hn
    exact ⟨[], Nat.le_refl 0, .inr ((wordsBeforeDevice_eq_zero s.cfg a).mp hn)⟩
  | succ n ih =>
    intro a hn
    have hd : ¬ IsDevice s a := fun h => by
      rw [(wordsBeforeDevice_eq_zero s.cfg a).mpr h] at hn
      cases hn
    by_cases hz : s.word a = 0x0000#16
    · exact ⟨[], Nat.zero_le _, .inl ⟨hd, hz⟩⟩
    · obtain ⟨h1, h2⟩ := not_or.mp hd
      have hn' : wordsBeforeDevice s.cfg (a + 1#16) = n := by
        rw [wordsBeforeDevice_succ h1 h2] at hn
        omega
      obtain ⟨ws, hlen, hws⟩ := ih (a + 1#16) hn'
      refine ⟨s.word a :: ws, Nat.succ_le_succ hlen, hws.imp (fun h => ⟨hd, rfl, hz, h⟩) (fun h => ⟨hd, rfl, hz, h⟩)⟩

/-- A walk reads fewer than 65,536 words. -/
theorem wordsBeforeDevice_lt (c : Config) (a : Word) : wordsBeforeDevice c a < 65536 :=
  Nat.lt_of_le_of_lt (Nat.min_le_left _ _) (c.kbsrAddr - a).isLt

/-- What the walk from a finds, within 65,536 words. -/
theorem stringWords_ends (s : State) (a : Word) : ∃ ws : List Word, ws.length < 65536 ∧
    ((stringWords s a = some ws ∧ StringAt s a ws) ∨ (stringWords s a = none ∧ StringBlocked s a ws)) := by
  obtain ⟨ws, hlen, h⟩ := string_or_blocked s _ a rfl
  refine ⟨ws, Nat.lt_of_le_of_lt hlen (wordsBeforeDevice_lt s.cfg a), ?_⟩
  exact h.imp (fun h => ⟨stringWords_of_stringAt h, h⟩) (fun h => ⟨stringWords_of_stringBlocked h, h⟩)

/-- No string stands where a walk is blocked. -/
theorem not_stringAt_and_stringBlocked {s : State} {a : Word} {ws us : List Word} (h : StringAt s a ws) :
    ¬ StringBlocked s a us := by
  intro hb
  have := (stringWords_of_stringAt h).symm.trans (stringWords_of_stringBlocked hb)
  cases this

/-! ### Refusals (60_exceptions.md R156) -/

/-- A string service is refused only for a string that reaches a device word. -/
theorem writeString_refused {f : Word → List Byte} {s : State} {r : Refusal} (h : writeString f (link s) = .refused r) :
    r = .stringReachesDevice ∧ ∃ ws, StringBlocked s (s.reg 0#3) ws := by
  obtain ⟨ws, _, ⟨_, hw⟩ | ⟨_, hw⟩⟩ := stringWords_ends s (s.reg 0#3)
  · obtain ⟨t, ht, _⟩ := writeString_of_stringAt f hw
    rw [ht] at h
    cases h
  · rw [writeString_of_stringBlocked f hw] at h
    cases h
    exact ⟨rfl, ws, hw⟩

/-- Every instruction but the string services answers a next state. -/
theorem exec_answers {i : Instr} (s : State) (h1 : i ≠ .puts) (h2 : i ≠ .putsp) (h3 : i ≠ .trap 0x22#8) (h4 : i ≠ .trap 0x24#8) :
    ∃ t, exec i s = .next t := by
  cases i with
  | puts => exact absurd rfl h1
  | putsp => exact absurd rfl h2
  | trap v =>
    simp only [exec, execTrap, dispatchTrap]
    split_ifs with _ _ e22 _ e24
    · exact ⟨_, rfl⟩
    · exact ⟨_, rfl⟩
    · exact absurd (congrArg Instr.trap e22) h3
    · exact ⟨_, rfl⟩
    · exact absurd (congrArg Instr.trap e24) h4
    · exact ⟨_, rfl⟩
    · exact ⟨_, rfl⟩
  | _ => exact ⟨_, rfl⟩

/-- A refused instruction is a string service whose string reaches a device word. -/
theorem exec_refused {i : Instr} {s : State} {r : Refusal} (h : exec i s = .refused r) :
    r = .stringReachesDevice ∧ ∃ ws, StringBlocked s (s.reg 0#3) ws := by
  by_cases hi : i = .puts ∨ i = .putsp ∨ i = .trap 0x22#8 ∨ i = .trap 0x24#8
  · rcases hi with rfl | rfl | rfl | rfl <;> exact writeString_refused h
  · simp only [not_or] at hi
    obtain ⟨h1, h2, h3, h4⟩ := hi
    obtain ⟨t, ht⟩ := exec_answers s h1 h2 h3 h4
    rw [ht] at h
    cases h

end Sys2Proof.Machine

namespace Sys2Proof

open Machine

/-- The dispatcher by number: a word of opcode TRAP decodes by its vector (43_trap.md R121). -/
theorem decode_trap {m : OpcodeMap} {w : Word} (h : opcodeAt m (field w 12 4) = .trap) :
    decode m w = decodeTrap (field w 0 8) := by
  rw [decode_of_opcodeAt h, decodeAs]

/-- Settles O30: the decoder's table, the dispatcher's table, and OUT. -/
theorem trapDispatchesByVector : Obligations.TrapDispatchesByVector := by
  unfold Obligations.TrapDispatchesByVector
  refine ⟨fun m w h => ?_, exec_trap_named, fun s => ⟨_, exec_out s, onlyLinkAndOutput_emit _ s⟩⟩
  have hnamed : ∀ (v : BitVec 8), (field w 0 8).toNat = v.toNat → decode m w = decodeTrap v :=
    fun v hv => by rw [decode_trap h, BitVec.eq_of_toNat_eq hv]
  exact ⟨hnamed 0x20#8, hnamed 0x21#8, hnamed 0x22#8, hnamed 0x23#8, hnamed 0x24#8, hnamed 0x25#8, decode_trap_of_unnamed h⟩

/-- Settles O32: OUT's byte is R0's low byte, which is R0 modulo 256. -/
theorem outEmitsLowByte : Obligations.OutEmitsLowByte := by
  unfold Obligations.OutEmitsLowByte
  refine ⟨fun m w h hv => ?_, fun s => ⟨_, _, exec_out s, ?_, onlyLinkAndOutput_emit _ s⟩⟩
  · rw [decode_trap h, hv]
    rfl
  · simp [lowByte_eq]

/-- Settles O33: the link and the wait, then the delivery with no echo. -/
theorem getcWaitsThenDelivers : Obligations.GetcWaitsThenDelivers := by
  unfold Obligations.GetcWaitsThenDelivers
  refine ⟨fun s => ⟨_, exec_getc s, rfl, ?_, sameRegsBut_link s, rfl, rfl, fun _ => rfl, rfl, rfl, rfl, rfl, rfl, rfl, rfl⟩,
    fun s b rest hr hp hi => ?_⟩
  · rw [State.reg_setPhase, reg_link, if_pos rfl]
  · obtain ⟨t, ht, hd⟩ := step_delivers hr hp hi
    rw [Delivered, echoOf, List.append_nil] at hd
    exact ⟨t, ht, hd⟩

/-- Settles O34: the link, the prompt and the wait, then the delivery with an echo. -/
theorem inPromptsEchoesAndDelivers : Obligations.InPromptsEchoesAndDelivers := by
  unfold Obligations.InPromptsEchoesAndDelivers
  refine ⟨fun s => ⟨_, exec_inp s, rfl, ?_, sameRegsBut_link s, rfl, rfl, fun _ => rfl, rfl, rfl, rfl, rfl, rfl, rfl, rfl⟩,
    fun s b rest hr hp hi => step_delivers hr hp hi⟩
  rw [State.reg_setPhase, State.reg_emit, reg_link, if_pos rfl]

/-- Settles O35: the string service of low bytes, one byte a word. -/
theorem putsEmitsLowBytes : Obligations.PutsEmitsLowBytes := by
  unfold Obligations.PutsEmitsLowBytes
  intro s ws h
  obtain ⟨t, ht, hout⟩ := writeString_of_stringAt (fun w => [lowByte w]) h
  rw [← List.map_eq_flatMap, funext lowByte_eq] at hout
  exact ⟨t, (exec_puts s).trans ht, hout⟩

/-- Settles O36: the string service of packed bytes. -/
theorem putspEmitsPackedBytes : Obligations.PutspEmitsPackedBytes := by
  unfold Obligations.PutspEmitsPackedBytes
  intro s ws h
  obtain ⟨t, ht, hout⟩ := writeString_of_stringAt packedBytes h
  rw [funext packedBytes_eq] at hout
  exact ⟨t, (exec_putsp s).trans ht, hout⟩

/-- Settles O37: both services refuse a blocked string. -/
theorem stringAtDeviceRefused : Obligations.StringAtDeviceRefused := by
  unfold Obligations.StringAtDeviceRefused
  exact fun s _ h => ⟨(exec_puts s).trans (writeString_of_stringBlocked _ h), (exec_putsp s).trans (writeString_of_stringBlocked _ h)⟩

/-- Settles O38: the walk ends at a zero word or at a device word, never both, and the services follow it. -/
theorem stringWalkEnds : Obligations.StringWalkEnds := by
  unfold Obligations.StringWalkEnds
  refine ⟨fun s a => ?_, fun s => ?_⟩
  · obtain ⟨ws, hlen, ⟨hw, h⟩ | ⟨hw, h⟩⟩ := stringWords_ends s a
    · exact ⟨ws, hlen, .inl ⟨hw, h, fun _ => not_stringAt_and_stringBlocked h⟩⟩
    · exact ⟨ws, hlen, .inr ⟨hw, h, fun _ h' => not_stringAt_and_stringBlocked h' h⟩⟩
  · obtain ⟨ws, hlen, ⟨_, h⟩ | ⟨_, h⟩⟩ := stringWords_ends s (s.reg 0#3)
    · obtain ⟨t, ht, _⟩ := writeString_of_stringAt (fun w => [lowByte w]) h
      obtain ⟨u, hu, _⟩ := writeString_of_stringAt packedBytes h
      exact ⟨ws, hlen, .inl ⟨h, ⟨t, (exec_puts s).trans ht⟩, u, (exec_putsp s).trans hu⟩⟩
    · exact ⟨ws, hlen, .inr ⟨h, stringAtDeviceRefused s ws h⟩⟩

/-- Settles O39: by instruction; a refused one is a string service. -/
theorem onlyStringServicesRefuse : Obligations.OnlyStringServicesRefuse := by
  unfold Obligations.OnlyStringServicesRefuse
  exact ⟨fun _ => exec_answers, fun _ _ _ => exec_refused⟩

/-- Settles O40: the link, the banner and the stop. -/
theorem haltStopsTheMachine : Obligations.HaltStopsTheMachine := by
  unfold Obligations.HaltStopsTheMachine
  refine fun s => ⟨_, exec_halt s, rfl, rfl, ?_, sameRegsBut_link s, rfl, rfl, rfl, fun _ => rfl, rfl, rfl, rfl⟩
  rw [State.reg_drawn, State.reg_setPc, State.reg_setRun, State.reg_emit, reg_link, if_pos rfl]

end Sys2Proof
end

section
/-! PROOFS, 10_state.md R21 to R31 and 60_exceptions.md R150. Registers, COND and the streams over every instruction, and the fatal step. -/

namespace Sys2Proof.Machine

/-! ### Registers and COND (R21, R25) -/

/-- An instruction writes only the registers listed for it (R21). -/
theorem exec_reg {i : Instr} {s t : State} {r : RegIdx} (h : exec i s = .next t) (hr : r ∉ regsWritten i) : t.reg r = s.reg r := by
  have hone : ∀ d : RegIdx, regsWritten i = [d] → r ≠ d := fun d hd e => hr (by simp [hd, e])
  cases exec_effect h with
  | result _ _ hw _ _ _ hu => rw [reg_writeResult, if_neg (hone _ hw), hu.reg]
  | store _ _ _ _ _ _ _ hu => exact hu.reg r
  | jump | unimplemented => rfl
  | call _ _ hw => exact sameRegsBut_link s r (hone _ hw)
  | output _ _ hw => exact sameRegsBut_link s r (hone _ hw)
  | wait _ _ _ hw => exact sameRegsBut_link s r (hone _ hw)
  | halt _ _ _ hw => exact sameRegsBut_link s r (hone _ hw)
  | unknownVector _ _ hw => exact sameRegsBut_link s r (hone _ hw)

/-- A resumed service writes R0 only (R21). -/
theorem resumeInput_reg {k : InputService} {s t : State} {r : RegIdx} (h : resumeInput k s = .next t) (hr : r ≠ 0#3) :
    t.reg r = s.reg r := by
  rcases resumeInput_cases k s with ⟨_, h'⟩ | ⟨b, rest, _, h'⟩ <;> rw [h'] at h <;> cases h
  · rfl
  · simp [writeInput_eq, hr]

/-- The instructions that call `setcc` leave the sign of their destination in COND (R25). -/
theorem exec_flags {i : Instr} {s t : State} {dr : RegIdx} (h : exec i s = .next t) (hi : flagSetter i = some dr) :
    FlagsOf t.cond (t.reg dr) := by
  cases exec_effect h with
  | result v hf =>
    obtain rfl := Option.some.inj (hf.symm.trans hi)
    rw [reg_writeResult, if_pos rfl]
    exact flagsOf_condOf v
  | jump _ hf | call _ hf | store _ _ hf | output _ hf | wait _ _ hf | halt _ _ hf | unknownVector _ hf | unimplemented hf =>
    cases hf.symm.trans hi

/-- No other instruction changes COND (R25). -/
theorem exec_cond {i : Instr} {s t : State} (h : exec i s = .next t) (hi : flagSetter i = none) : t.cond = s.cond := by
  cases exec_effect h with
  | result _ hf => cases hf.symm.trans hi
  | store _ _ _ _ _ _ _ hu => exact hu.cond
  | jump | call | output | wait | halt | unknownVector | unimplemented => rfl

/-! ### The streams (R30, R31) -/

/-- From s to t, at most n bytes are taken from the front of the input, and the output only grows. -/
def StreamsFlow (n : Nat) (s t : State) : Prop :=
  (∃ taken : List Byte, s.input = taken ++ t.input ∧ taken.length ≤ n) ∧ ∃ more : List Byte, t.output = s.output ++ more

/-- The flow of two parts. -/
theorem StreamsFlow.trans {m n : Nat} {s u t : State} (h1 : StreamsFlow m s u) (h2 : StreamsFlow n u t) :
    StreamsFlow (m + n) s t := by
  obtain ⟨⟨t1, e1, l1⟩, m1, o1⟩ := h1
  obtain ⟨⟨t2, e2, l2⟩, m2, o2⟩ := h2
  refine ⟨⟨t1 ++ t2, by rw [e1, e2, List.append_assoc], ?_⟩, m1 ++ m2, by rw [o2, o1, List.append_assoc]⟩
  rw [List.length_append]
  exact Nat.add_le_add l1 l2

/-- Where the input stays, only the output flows. -/
theorem StreamsFlow.of_input_eq {n : Nat} {s t : State} {more : List Byte} (hi : t.input = s.input)
    (ho : t.output = s.output ++ more) : StreamsFlow n s t :=
  ⟨⟨[], by rw [hi, List.nil_append], Nat.zero_le n⟩, more, ho⟩

/-- A flow within n bytes is one within more. -/
theorem StreamsFlow.mono {m n : Nat} {s t : State} (h : StreamsFlow m s t) (hmn : m ≤ n) : StreamsFlow n s t := by
  obtain ⟨⟨taken, e, l⟩, hout⟩ := h
  exact ⟨⟨taken, e, Nat.le_trans l hmn⟩, hout⟩

/-- n intercepted reads take at most n bytes and write none. -/
theorem Reads.streamsFlow {n : Nat} {s u : State} (h : Reads s n u) : StreamsFlow n s u :=
  ⟨h.input, [], by rw [h.output, List.append_nil]⟩

/-- The fetch takes at most one byte. -/
theorem streamsFlow_fetch (s : State) : StreamsFlow 1 s (fetch s) :=
  ⟨input_fetch s, [], by rw [output_fetch, List.append_nil]⟩

/-- An instruction takes at most two bytes, LDI's two reads. -/
theorem exec_streamsFlow {i : Instr} {s t : State} (h : exec i s = .next t) : StreamsFlow 2 s t := by
  cases exec_effect h with
  | result _ _ _ _ _ hn hu => exact hu.streamsFlow.mono hn
  | store _ _ _ _ _ _ hn hu => exact hu.streamsFlow.mono (Nat.le_succ_of_le hn)
  | output bs | wait bs | halt bs => exact .of_input_eq (more := bs) rfl rfl
  | jump | call | unknownVector | unimplemented => exact .of_input_eq (more := []) rfl (List.append_nil _).symm

/-- A resumed service takes at most one byte. -/
theorem resumeInput_streamsFlow {k : InputService} {s t : State} (h : resumeInput k s = .next t) : StreamsFlow 1 s t := by
  rcases resumeInput_cases k s with ⟨_, h'⟩ | ⟨b, rest, hi, h'⟩ <;> rw [h'] at h <;> cases h
  · exact .of_input_eq (more := []) rfl (List.append_nil _).symm
  · exact ⟨⟨[b], by simp [writeInput_eq, hi], by simp⟩, echoOf k b, by simp [writeInput_eq]⟩

/-- A step takes at most three bytes, the fetch's poll and the instruction's two. -/
theorem step_streamsFlow {s t : State} (h : step s = .next t) : StreamsFlow 3 s t := by
  rcases step_cases s with ⟨_, hs⟩ | ⟨k, _, _, hs⟩ | ⟨_, _, hs⟩ <;> rw [hs] at h
  · cases h
    exact .of_input_eq (more := []) rfl (List.append_nil _).symm
  · exact (resumeInput_streamsFlow h).mono (by decide)
  · exact (streamsFlow_fetch s).trans (exec_streamsFlow h)

/-! ### The fatal step (60_exceptions.md R150, R152) -/

/-- The fetch of a plain word: the word, the next PC, and nothing else. -/
theorem fetch_of_ne {s : State} (h : s.pc ≠ s.cfg.kbsrAddr) : fetch s = (s.setInstr (s.word s.pc)).setPc (s.pc + 1#16) := by
  rw [fetch_eq, intercept_of_ne h]

/-- A step at a plain word executes the instruction that the word decodes to. -/
theorem step_of_ne {s : State} (hr : s.running = true) (hp : s.phase = .idle) (h : s.pc ≠ s.cfg.kbsrAddr) :
    step s = exec (decode s.cfg.opcodeMap (s.word s.pc)) ((s.setInstr (s.word s.pc)).setPc (s.pc + 1#16)) := by
  rw [step_idle hr hp, fetch_of_ne h]
  rfl

end Sys2Proof.Machine

namespace Sys2Proof

open Machine

/-- Settles O46: by the shapes of a next state of `exec` and of a resumed service. -/
theorem onlyListedRegistersWritten : Obligations.OnlyListedRegistersWritten := by
  unfold Obligations.OnlyListedRegistersWritten
  exact ⟨fun _ _ _ _ => exec_reg, fun _ _ _ _ => resumeInput_reg⟩

/-- Settles O47: by the shapes of a next state of `exec`, each with its flag setter. -/
theorem condSetOnlyByListed : Obligations.CondSetOnlyByListed := by
  unfold Obligations.CondSetOnlyByListed
  exact fun _ _ _ h => ⟨fun _ => exec_flags h, exec_cond h⟩

/-- Settles O50: the flow of a step, composed of the fetch's and the instruction's. -/
theorem streamsKeepTheirOrder : Obligations.StreamsKeepTheirOrder := by
  unfold Obligations.StreamsKeepTheirOrder
  exact fun _ _ => step_streamsFlow

/-- Settles O42: the fetch of a plain word, then the fatal path, which records that word and PC - 1. -/
theorem fatalStepRecordsWordAndAddress : Obligations.FatalStepRecordsWordAndAddress := by
  unfold Obligations.FatalStepRecordsWordAndAddress
  intro s hr hp _ hne hop
  have hexec : step s = .next (raiseFatal .unimplementedOpcode ((s.setInstr (s.word s.pc)).setPc (s.pc + 1#16))) := by
    rw [step_of_ne hr hp hne]
    rcases hop with hop | hop <;> rw [decode_of_opcodeAt hop]
    · exact exec_rti _
    · exact exec_reserved _
  refine ⟨_, hexec, rfl, ?_, rfl, fun _ => rfl, rfl, rfl, rfl, rfl, rfl⟩
  simp

end Sys2Proof
end

section
/-! PROOFS, 10_state.md R32, R33, 20_memory.md R52 and 70_reset_and_hazards.md. The host's moves, the loader and the launch. -/

namespace Sys2Proof.Machine

/-- The host may use memory exactly while the core is stopped and in phase Idle (10_state.md R33, D22). -/
theorem hostMayUseMemory_iff (s : State) : hostMayUseMemory s = true ↔ s.running = false ∧ s.phase = .idle := by
  simp [hostMayUseMemory]

/-- The start move is refused after a Fatal (10_state.md R29). -/
theorem hostStart_of_fatal {s : State} {k : FatalKind} {w a : Word} (h : s.stopCause = .fatal k w a) :
    hostMove .start s = .refused .hostCannotResume := by
  simp [hostMove, hostStart, h]

/-- The stop request changes nothing after a Fatal (10_state.md R29). -/
theorem hostStop_of_fatal {s : State} {k : FatalKind} {w a : Word} (h : s.stopCause = .fatal k w a) :
    hostMove .stop s = .next s := by
  simp [hostMove, hostStop, h]

/-- The stop request after no Fatal stops the core and abandons a waiting service (10_state.md R32). -/
theorem hostStop_of_not_fatal {s : State} (h : ∀ k w a, s.stopCause ≠ .fatal k w a) :
    hostMove .stop s = .next ((s.setRun false .hostStop).setPhase .idle) := by
  cases hc : s.stopCause with
  | fatal k w a => exact absurd hc (h k w a)
  | none | halt | hostStop => simp [hostMove, hostStop, hc]

/-- The host's reads and writes are refused while the core runs or waits (10_state.md R33). -/
theorem hostMemory_refused {s : State} (h : s.running = true ∨ s.phase ≠ .idle) (a v : Word) :
    hostMove (.read a) s = .refused .hostMemoryInUse ∧ hostMove (.write a v) s = .refused .hostMemoryInUse := by
  have hno : hostMayUseMemory s = false := by
    rw [← Bool.not_eq_true, hostMayUseMemory_iff]
    rcases h with h | h <;> simp [h]
  simp [hostMove, hostRead, hostWrite, hno]

/-- No move of the host writes a register, PC or COND (10_state.md R33, D27). -/
theorem hostMove_registers {m : HostMove} {s t : State} (h : hostMove m s = .next t) :
    t.regs = s.regs ∧ t.pc = s.pc ∧ t.cond = s.cond := by
  rcases hostMove_cases h with
    ⟨_, _, rfl⟩ | ⟨_, _, rfl⟩ | ⟨_, _, rfl⟩ | ⟨_, _, rfl⟩ | ⟨a, _, _, _, rfl⟩ | ⟨_, _, _, _, _, rfl⟩
  case inr.inr.inr.inr.inl => exact ⟨regs_intercept s a, pc_intercept s a, cond_intercept s a⟩
  all_goals exact ⟨rfl, rfl, rfl⟩

/-- A loader's image that fits is stored word by word while the host may use memory (20_memory.md R52). -/
theorem hostLoad_of_fits {origin : Word} {image : List Word} {s : State} (h : hostMayUseMemory s = true)
    (hl : origin.toNat + image.length ≤ 65536) : hostLoad origin image s = .next (storeImage origin image s) := by
  rw [hostLoad, if_pos h, if_pos hl]

/-- An image that does not fit below 0x10000 is refused (D25). -/
theorem hostLoad_of_too_long {origin : Word} {image : List Word} {s : State} (h : hostMayUseMemory s = true)
    (hl : 65536 < origin.toNat + image.length) : hostLoad origin image s = .refused .imageTooLong := by
  rw [hostLoad, if_pos h, if_neg (Nat.not_le.mpr hl)]

end Sys2Proof.Machine

namespace Sys2Proof

open Machine

/-- Settles O58: each move of the host, by the states in which it may be made. -/
theorem hostMovesWithinTheirRights : Obligations.HostMovesWithinTheirRights := by
  unfold Obligations.HostMovesWithinTheirRights
  refine ⟨fun s h => ⟨_, hostStart_of_not_fatal h, rfl, rfl, rfl, rfl, rfl⟩, fun _ _ _ _ => hostStart_of_fatal,
    fun _ a v h => hostMemory_refused h a v, fun s a v hm hr hp => ?_, fun _ _ _ => hostMove_registers⟩
  refine ⟨_, hostMove_write ((hostMayUseMemory_iff s).mpr ⟨hr, hp⟩) a v, onlyStored_memWrite hm a v, fun ha => ?_⟩
  rw [hostReadValue, memRead_of_ne (s := memWrite s a v) ha]
  exact (State.word_setWord hm a v a).trans (if_pos rfl)

/-- Settles O59: the loader's stores from the origin on. -/
theorem loaderPlacesImage : Obligations.LoaderPlacesImage := by
  unfold Obligations.LoaderPlacesImage
  refine ⟨fun origin image s hm hr hp hl => ?_, fun origin image s hr hp hl => ?_⟩
  · have hspec := storeImage_spec image origin.toNat s hm hl
    rw [BitVec.ofNat_toNat, BitVec.setWidth_eq] at hspec
    exact ⟨_, hostLoad_of_fits ((hostMayUseMemory_iff s).mpr ⟨hr, hp⟩) hl, hspec⟩
  · exact hostLoad_of_too_long ((hostMayUseMemory_iff s).mpr ⟨hr, hp⟩) hl

/-- Settles O57: a Fatal is left alone; any other core is stopped and in phase Idle. -/
theorem stopRequestStopsTheCore : Obligations.StopRequestStopsTheCore := by
  unfold Obligations.StopRequestStopsTheCore
  exact ⟨fun _ _ _ _ => hostStop_of_fatal,
    fun s h => ⟨_, hostStop_of_not_fatal h, rfl, rfl, rfl, rfl, rfl, rfl, rfl, rfl, rfl, rfl, rfl, rfl⟩⟩

/-- Settles O56: the launch state, field by field. -/
theorem launchState : Obligations.LaunchState := by
  unfold Obligations.LaunchState
  exact fun c input => ⟨State.launch c input, rfl, rfl, fun _ => rfl, rfl, rfl, rfl, rfl, rfl, rfl, rfl, rfl⟩

end Sys2Proof
end

section
/-! PROOFS, 43_trap.md R122 and 60_exceptions.md R163. A held core and a branch to itself. -/

namespace Sys2Proof.Machine

/-- With no byte supplied a waiting core's step changes nothing (R122, D10). -/
theorem step_held {s : State} {k : InputService} (hr : s.running = true) (hp : s.phase = .waitIn k) (hi : s.input = []) :
    step s = .next s := by
  rw [step_waiting hr hp, resumeInput, hi]

/-- Such a core is held. -/
theorem status_held {s : State} {k : InputService} (hr : s.running = true) (hp : s.phase = .waitIn k) (hi : s.input = []) :
    s.status = .held := by
  simp [State.status, hr, hp, hi]

/-- A running core between instructions is enabled. -/
theorem enabled_of_idle {s : State} (hr : s.running = true) (hp : s.phase = .idle) : s.Enabled := by
  simp [State.Enabled, State.status, hr, hp]

/-- Steps for ever from a held core are no diverging run: the core stays where it is, and no step is enabled there (R163). -/
theorem not_diverging_of_held {s : State} (hstep : step s = .next s) (hs : s.status = .held) : ¬ Diverging s (fun _ => .step) := by
  rintro ⟨t, ht, hinf⟩
  obtain ⟨m, _, _, hen⟩ := hinf 0
  rw [ht.fixed hstep m, State.Enabled, hs] at hen
  cases hen

/-- The offset -1 leads back to the branch itself (41_control.md R90). -/
theorem add_one_add_sext_neg_one (w : Word) : w + 1#16 + sext 0x1FF#9 = w := by
  have : sext 0x1FF#9 = 0xFFFF#16 := by decide
  rw [this]
  bv_omega

/-- u is at the branch of s: it runs between instructions, with the PC, COND, memory and parameters of s. -/
def AtBranchOf (s u : State) : Prop :=
  u.running = true ∧ u.phase = .idle ∧ u.pc = s.pc ∧ u.cond = s.cond ∧ u.mem = s.mem ∧ u.cfg = s.cfg

/-- A taken branch to itself in plain memory steps back to itself. -/
theorem step_branch_to_itself {n z p : Bool} {s u : State} (hne : s.pc ≠ s.cfg.kbsrAddr)
    (hdec : decode s.cfg.opcodeMap (s.word s.pc) = .br n z p 0x1FF#9) (ht : branchTaken n z p s.cond = true)
    (hu : AtBranchOf s u) : ∃ t, step u = .next t ∧ AtBranchOf s t := by
  obtain ⟨hr, hp, hpc, hcond, hmem, hcfg⟩ := hu
  have hword : u.word u.pc = s.word s.pc := by rw [State.word, State.word, hmem, hpc]
  have hstep := step_of_ne hr hp (by rwa [hpc, hcfg])
  rw [hcfg, hword, hdec, exec_br] at hstep
  refine ⟨_, hstep, hr, hp, ?_, hcond, hmem, hcfg⟩
  simp [hcond, ht, pcRelative, hpc, add_one_add_sext_neg_one]

end Sys2Proof.Machine

namespace Sys2Proof

open Machine

/-- Settles O60: a held core is a fixed point of `step` that is not enabled, until a byte or a stop request comes; a taken branch to itself
steps within a set of enabled states. -/
theorem waitingHoldsBranchLoopDiverges : Obligations.WaitingHoldsBranchLoopDiverges := by
  unfold Obligations.WaitingHoldsBranchLoopDiverges
  refine ⟨fun s k hr hp hi hc => ?_, fun n z p s hr hp hne hdec htaken => ?_⟩
  · have hstep := step_held hr hp hi
    have hstatus := status_held hr hp hi
    refine ⟨hstep, hstatus, not_diverging_of_held hstep hstatus, fun b => ?_,
      ⟨_, hostStop_of_none hc, rfl, rfl, rfl, rfl⟩⟩
    obtain ⟨u, hu, hbyte, _, _, _, hidle, hpc, _⟩ :=
      step_delivers (s := s.setInput [b]) hr hp (State.input_setInput s [b])
    have hsupply : hostMove (.supply b) s = .next (s.setInput [b]) := by
      rw [hostMove, hostSupply, hi, List.nil_append]
    exact ⟨_, u, hsupply, hu, hidle, hpc, hbyte⟩
  · rw [← branchTaken_iff] at htaken
    refine diverging_of_closed (P := AtBranchOf s) (fun u hu => ⟨?_, step_branch_to_itself hne hdec htaken hu⟩)
      ⟨hr, hp, rfl, rfl, rfl, rfl⟩
    obtain ⟨hru, hpu, _⟩ := hu
    exact enabled_of_idle hru hpu

end Sys2Proof
end
